-- ==== Sys2Proof/Word.lean ====
section
/-! DEFINITION. The widths of the machine's values (spec/00_scope.md R4, R12): all unsigned, bit 0 least significant. -/

namespace Sys2Proof

/-- The addressable unit and the width of a general register, a timer and the immediate kk (R4, R80). -/
abbrev Byte := BitVec 8

/-- An instruction word; the width of PC, I, a stack slot and a fault's info value (R4, R29, R73, R200). -/
abbrev Word := BitVec 16

/-- The 12-bit address field nnn (R73). -/
abbrev Addr := BitVec 12

/-- A general register's number 0 to 15: a field x or y of the word (R21, R73). -/
abbrev Reg := BitVec 4

/-- A 4-bit field that names no register: the sprite height n (R73, R80). -/
abbrev Nibble := BitVec 4

/-- A logical key 0x0 to 0xF (R8). -/
abbrev Key := BitVec 4

end Sys2Proof
end

