-- ==== Sys2Proof/Syntax.lean ====
section
/-! DEFINITION. The 34 instructions of spec/30_encoding.md R75, one constructor per row of spec/opcode_table.json, in the table's order.
A constructor carries every field its row's format has (R74), the ignored `y` of SHR and SHL included (R79). -/

namespace Sys2Proof

inductive Instr where
  /-- CLS, `00E0` (R140). -/
  | cls
  /-- RET, `00EE` (R123). -/
  | ret
  /-- JP nnn, `1nnn` (R120). -/
  | jp (nnn : Addr)
  /-- CALL nnn, `2nnn` (R122). -/
  | call (nnn : Addr)
  /-- SE Vx,kk, `3xkk` (R124). -/
  | seImm (x : Reg) (kk : Byte)
  /-- SNE Vx,kk, `4xkk` (R125). -/
  | sneImm (x : Reg) (kk : Byte)
  /-- SE Vx,Vy, `5xy0` (R126). -/
  | seReg (x y : Reg)
  /-- LD Vx,kk, `6xkk` (R100). -/
  | ldImm (x : Reg) (kk : Byte)
  /-- ADD Vx,kk, `7xkk` (R101). -/
  | addImm (x : Reg) (kk : Byte)
  /-- LD Vx,Vy, `8xy0` (R102). -/
  | ldReg (x y : Reg)
  /-- OR Vx,Vy, `8xy1` (R103). -/
  | orReg (x y : Reg)
  /-- AND Vx,Vy, `8xy2` (R104). -/
  | andReg (x y : Reg)
  /-- XOR Vx,Vy, `8xy3` (R105). -/
  | xorReg (x y : Reg)
  /-- ADD Vx,Vy, `8xy4` (R106). -/
  | addReg (x y : Reg)
  /-- SUB Vx,Vy, `8xy5` (R107). -/
  | subReg (x y : Reg)
  /-- SHR Vx, `8xy6`; `y` is in the word and ignored (R108). -/
  | shr (x y : Reg)
  /-- SUBN Vx,Vy, `8xy7` (R109). -/
  | subnReg (x y : Reg)
  /-- SHL Vx, `8xyE`; `y` is in the word and ignored (R110). -/
  | shl (x y : Reg)
  /-- SNE Vx,Vy, `9xy0` (R127). -/
  | sneReg (x y : Reg)
  /-- LD I,nnn, `Annn` (R170). -/
  | ldI (nnn : Addr)
  /-- JP V0,nnn, `Bnnn` (R121). -/
  | jpV0 (nnn : Addr)
  /-- RND Vx,kk, `Cxkk` (R183). -/
  | rnd (x : Reg) (kk : Byte)
  /-- DRW Vx,Vy,n, `Dxyn` (R141). -/
  | drw (x y : Reg) (n : Nibble)
  /-- SKP Vx, `Ex9E` (R161). -/
  | skp (x : Reg)
  /-- SKNP Vx, `ExA1` (R162). -/
  | sknp (x : Reg)
  /-- LD Vx,DT, `Fx07` (R151). -/
  | ldVxDt (x : Reg)
  /-- LD Vx,K, `Fx0A` (R163). -/
  | ldVxK (x : Reg)
  /-- LD DT,Vx, `Fx15` (R152). -/
  | ldDtVx (x : Reg)
  /-- LD ST,Vx, `Fx18` (R153). -/
  | ldStVx (x : Reg)
  /-- ADD I,Vx, `Fx1E` (R171). -/
  | addI (x : Reg)
  /-- LD F,Vx, `Fx29` (R172). -/
  | ldF (x : Reg)
  /-- LD B,Vx, `Fx33` (R180). -/
  | ldB (x : Reg)
  /-- LD [I],Vx, `Fx55` (R181). -/
  | ldMemVx (x : Reg)
  /-- LD Vx,[I], `Fx65` (R182). -/
  | ldVxMem (x : Reg)
  deriving DecidableEq, Repr

end Sys2Proof
end

