-- ==== Sys2Proof/Decode.lean ====
section
/-! DEFINITION. Decoding (spec/30_encoding.md R73, R76, R77, R78), the opcode map as rows of mask and match (R75), and the encoder
written from the formats of R74. -/

namespace Sys2Proof

/-- Why bytes are no instruction; one name per row of R77's table of illegal words. -/
inductive DecodeError where
  /-- Fewer than two bytes were given (an instruction is one 16-bit word, R73). -/
  | truncated
  /-- Class 0 other than 0x00E0 and 0x00EE (R77, R78). -/
  | class0
  /-- `5xyd` with d other than 0 (R77). -/
  | class5
  /-- `8xyd` with d one of 8, 9, A, B, C, D, F (R77). -/
  | class8
  /-- `9xyd` with d other than 0 (R77). -/
  | class9
  /-- `Exkk` with kk other than 0x9E and 0xA1 (R77). -/
  | classE
  /-- `Fxkk` with kk none of the nine of R76 (R77). -/
  | classF
  deriving DecidableEq, Repr

/-- The byte at the lower address is bits 15 to 8: fetch is big-endian (R54). -/
def wordOfBytes (hi lo : Byte) : Word := hi ++ lo

/-- Bits 15 to 8 of a word. -/
def hiByte (w : Word) : Byte := w.extractLsb' 8 8

/-- Bits 7 to 0 of a word. -/
def loByte (w : Word) : Byte := w.extractLsb' 0 8

/-- The class c, bits 15 to 12 (R73). -/
def fieldC (w : Word) : BitVec 4 := w.extractLsb' 12 4

/-- The field x, bits 11 to 8 (R73). -/
def fieldX (w : Word) : Reg := w.extractLsb' 8 4

/-- The field y, bits 7 to 4 (R73). -/
def fieldY (w : Word) : Reg := w.extractLsb' 4 4

/-- The field d, bits 3 to 0 (R73). -/
def fieldD (w : Word) : Nibble := w.extractLsb' 0 4

/-- The field kk, bits 7 to 0 (R73). -/
def fieldKk (w : Word) : Byte := w.extractLsb' 0 8

/-- The field nnn, bits 11 to 0 (R73). -/
def fieldNnn (w : Word) : Addr := w.extractLsb' 0 12

/-- Class 8 by its low nibble (R76). -/
def decodeClass8 (x y : Reg) (d : Nibble) : Except DecodeError Instr :=
  match d with
  | 0x0#4 => .ok (.ldReg x y)
  | 0x1#4 => .ok (.orReg x y)
  | 0x2#4 => .ok (.andReg x y)
  | 0x3#4 => .ok (.xorReg x y)
  | 0x4#4 => .ok (.addReg x y)
  | 0x5#4 => .ok (.subReg x y)
  | 0x6#4 => .ok (.shr x y)
  | 0x7#4 => .ok (.subnReg x y)
  | 0xE#4 => .ok (.shl x y)
  | _ => .error .class8

/-- Class F by its low byte (R76). -/
def decodeClassF (x : Reg) (kk : Byte) : Except DecodeError Instr :=
  match kk with
  | 0x07#8 => .ok (.ldVxDt x)
  | 0x0A#8 => .ok (.ldVxK x)
  | 0x15#8 => .ok (.ldDtVx x)
  | 0x18#8 => .ok (.ldStVx x)
  | 0x1E#8 => .ok (.addI x)
  | 0x29#8 => .ok (.ldF x)
  | 0x33#8 => .ok (.ldB x)
  | 0x55#8 => .ok (.ldMemVx x)
  | 0x65#8 => .ok (.ldVxMem x)
  | _ => .error .classF

/-- R76, on all 65536 words, with HAS_RND at its default (the switch is checked on the decoded instruction, `Instr.wf`). The last
arm is class F: the fifteen other classes stand above it. -/
def decodeWord (w : Word) : Except DecodeError Instr :=
  match fieldC w with
  | 0x0#4 => if w = 0x00E0#16 then .ok .cls else if w = 0x00EE#16 then .ok .ret else .error .class0
  | 0x1#4 => .ok (.jp (fieldNnn w))
  | 0x2#4 => .ok (.call (fieldNnn w))
  | 0x3#4 => .ok (.seImm (fieldX w) (fieldKk w))
  | 0x4#4 => .ok (.sneImm (fieldX w) (fieldKk w))
  | 0x5#4 => if fieldD w = 0x0#4 then .ok (.seReg (fieldX w) (fieldY w)) else .error .class5
  | 0x6#4 => .ok (.ldImm (fieldX w) (fieldKk w))
  | 0x7#4 => .ok (.addImm (fieldX w) (fieldKk w))
  | 0x8#4 => decodeClass8 (fieldX w) (fieldY w) (fieldD w)
  | 0x9#4 => if fieldD w = 0x0#4 then .ok (.sneReg (fieldX w) (fieldY w)) else .error .class9
  | 0xA#4 => .ok (.ldI (fieldNnn w))
  | 0xB#4 => .ok (.jpV0 (fieldNnn w))
  | 0xC#4 => .ok (.rnd (fieldX w) (fieldKk w))
  | 0xD#4 => .ok (.drw (fieldX w) (fieldY w) (fieldD w))
  | 0xE#4 => if fieldKk w = 0x9E#8 then .ok (.skp (fieldX w))
      else if fieldKk w = 0xA1#8 then .ok (.sknp (fieldX w)) else .error .classE
  | _ => decodeClassF (fieldX w) (fieldKk w)

/-- The decoder on bytes in memory order: one instruction and the bytes after it, or a named refusal (R54, R73). -/
def decode : List Byte → Except DecodeError (Instr × List Byte)
  | hi :: lo :: rest =>
    match decodeWord (wordOfBytes hi lo) with
    | .ok i => .ok (i, rest)
    | .error e => .error e
  | _ => .error .truncated

/-- The instruction read from a table word `w` of `nbits` bits, any bit above them 0: its two bytes, high byte first (R54), go to the
decoder. -/
def decodeTableWord (nbits w : Nat) : Option Instr :=
  let word : Word := BitVec.ofNat 16 (w % 2 ^ nbits)
  match decode [hiByte word, loByte word] with
  | .ok (i, _) => some i
  | .error _ => none

/-- A row of the opcode map: a word selects it when `w &&& mask = want` (R75). -/
structure OpcodeRow where
  mask : Word
  want : Word
  deriving DecidableEq, Repr

/-- A row whose class alone selects it (R76). -/
def OpcodeRow.ofClass (c : BitVec 4) : OpcodeRow := { mask := 0xF000#16, want := c ++ 0x000#12 }

/-- A row selected by class and low nibble (R76). -/
def OpcodeRow.ofNibble (c d : BitVec 4) : OpcodeRow := { mask := 0xF00F#16, want := c ++ 0x00#8 ++ d }

/-- A row selected by class and low byte (R76). -/
def OpcodeRow.ofByte (c : BitVec 4) (kk : Byte) : OpcodeRow := { mask := 0xF0FF#16, want := c ++ 0x0#4 ++ kk }

/-- A row that fixes the whole word (R76). -/
def OpcodeRow.ofWord (w : Word) : OpcodeRow := { mask := 0xFFFF#16, want := w }

/-- The 34 rows of R75, in its order. -/
def opcodeRows : List OpcodeRow :=
  [.ofWord 0x00E0#16, .ofWord 0x00EE#16]
  ++ [0x1#4, 0x2#4, 0x3#4, 0x4#4].map .ofClass
  ++ [.ofNibble 0x5#4 0x0#4]
  ++ [0x6#4, 0x7#4].map .ofClass
  ++ [0x0#4, 0x1#4, 0x2#4, 0x3#4, 0x4#4, 0x5#4, 0x6#4, 0x7#4, 0xE#4].map (.ofNibble 0x8#4)
  ++ [.ofNibble 0x9#4 0x0#4]
  ++ [0xA#4, 0xB#4, 0xC#4, 0xD#4].map .ofClass
  ++ [0x9E#8, 0xA1#8].map (.ofByte 0xE#4)
  ++ [0x07#8, 0x0A#8, 0x15#8, 0x18#8, 0x1E#8, 0x29#8, 0x33#8, 0x55#8, 0x65#8].map (.ofByte 0xF#4)

/-- The row of R75 an instruction belongs to, as spec/opcode_table.json gives its match and mask. -/
def Instr.row : Instr → OpcodeRow
  | .cls => { mask := 0xFFFF#16, want := 0x00E0#16 }
  | .ret => { mask := 0xFFFF#16, want := 0x00EE#16 }
  | .jp _ => { mask := 0xF000#16, want := 0x1000#16 }
  | .call _ => { mask := 0xF000#16, want := 0x2000#16 }
  | .seImm _ _ => { mask := 0xF000#16, want := 0x3000#16 }
  | .sneImm _ _ => { mask := 0xF000#16, want := 0x4000#16 }
  | .seReg _ _ => { mask := 0xF00F#16, want := 0x5000#16 }
  | .ldImm _ _ => { mask := 0xF000#16, want := 0x6000#16 }
  | .addImm _ _ => { mask := 0xF000#16, want := 0x7000#16 }
  | .ldReg _ _ => { mask := 0xF00F#16, want := 0x8000#16 }
  | .orReg _ _ => { mask := 0xF00F#16, want := 0x8001#16 }
  | .andReg _ _ => { mask := 0xF00F#16, want := 0x8002#16 }
  | .xorReg _ _ => { mask := 0xF00F#16, want := 0x8003#16 }
  | .addReg _ _ => { mask := 0xF00F#16, want := 0x8004#16 }
  | .subReg _ _ => { mask := 0xF00F#16, want := 0x8005#16 }
  | .shr _ _ => { mask := 0xF00F#16, want := 0x8006#16 }
  | .subnReg _ _ => { mask := 0xF00F#16, want := 0x8007#16 }
  | .shl _ _ => { mask := 0xF00F#16, want := 0x800E#16 }
  | .sneReg _ _ => { mask := 0xF00F#16, want := 0x9000#16 }
  | .ldI _ => { mask := 0xF000#16, want := 0xA000#16 }
  | .jpV0 _ => { mask := 0xF000#16, want := 0xB000#16 }
  | .rnd _ _ => { mask := 0xF000#16, want := 0xC000#16 }
  | .drw _ _ _ => { mask := 0xF000#16, want := 0xD000#16 }
  | .skp _ => { mask := 0xF0FF#16, want := 0xE09E#16 }
  | .sknp _ => { mask := 0xF0FF#16, want := 0xE0A1#16 }
  | .ldVxDt _ => { mask := 0xF0FF#16, want := 0xF007#16 }
  | .ldVxK _ => { mask := 0xF0FF#16, want := 0xF00A#16 }
  | .ldDtVx _ => { mask := 0xF0FF#16, want := 0xF015#16 }
  | .ldStVx _ => { mask := 0xF0FF#16, want := 0xF018#16 }
  | .addI _ => { mask := 0xF0FF#16, want := 0xF01E#16 }
  | .ldF _ => { mask := 0xF0FF#16, want := 0xF029#16 }
  | .ldB _ => { mask := 0xF0FF#16, want := 0xF033#16 }
  | .ldMemVx _ => { mask := 0xF0FF#16, want := 0xF055#16 }
  | .ldVxMem _ => { mask := 0xF0FF#16, want := 0xF065#16 }

/-- The format NNN: class and a 12-bit address (R74). -/
def encodeNnn (c : BitVec 4) (nnn : Addr) : Word := c ++ nnn

/-- The format XKK, and X with its low byte fixed (R74). -/
def encodeXkk (c : BitVec 4) (x : Reg) (kk : Byte) : Word := c ++ x ++ kk

/-- The format XYN, and XY with its low nibble fixed (R74). -/
def encodeXyn (c : BitVec 4) (x y : Reg) (d : Nibble) : Word := c ++ x ++ y ++ d

/-- The word of an instruction, by the formats of R74 and the fixed digits of R75. -/
def encode : Instr → Word
  | .cls => 0x00E0#16
  | .ret => 0x00EE#16
  | .jp nnn => encodeNnn 0x1#4 nnn
  | .call nnn => encodeNnn 0x2#4 nnn
  | .seImm x kk => encodeXkk 0x3#4 x kk
  | .sneImm x kk => encodeXkk 0x4#4 x kk
  | .seReg x y => encodeXyn 0x5#4 x y 0x0#4
  | .ldImm x kk => encodeXkk 0x6#4 x kk
  | .addImm x kk => encodeXkk 0x7#4 x kk
  | .ldReg x y => encodeXyn 0x8#4 x y 0x0#4
  | .orReg x y => encodeXyn 0x8#4 x y 0x1#4
  | .andReg x y => encodeXyn 0x8#4 x y 0x2#4
  | .xorReg x y => encodeXyn 0x8#4 x y 0x3#4
  | .addReg x y => encodeXyn 0x8#4 x y 0x4#4
  | .subReg x y => encodeXyn 0x8#4 x y 0x5#4
  | .shr x y => encodeXyn 0x8#4 x y 0x6#4
  | .subnReg x y => encodeXyn 0x8#4 x y 0x7#4
  | .shl x y => encodeXyn 0x8#4 x y 0xE#4
  | .sneReg x y => encodeXyn 0x9#4 x y 0x0#4
  | .ldI nnn => encodeNnn 0xA#4 nnn
  | .jpV0 nnn => encodeNnn 0xB#4 nnn
  | .rnd x kk => encodeXkk 0xC#4 x kk
  | .drw x y n => encodeXyn 0xD#4 x y n
  | .skp x => encodeXkk 0xE#4 x 0x9E#8
  | .sknp x => encodeXkk 0xE#4 x 0xA1#8
  | .ldVxDt x => encodeXkk 0xF#4 x 0x07#8
  | .ldVxK x => encodeXkk 0xF#4 x 0x0A#8
  | .ldDtVx x => encodeXkk 0xF#4 x 0x15#8
  | .ldStVx x => encodeXkk 0xF#4 x 0x18#8
  | .addI x => encodeXkk 0xF#4 x 0x1E#8
  | .ldF x => encodeXkk 0xF#4 x 0x29#8
  | .ldB x => encodeXkk 0xF#4 x 0x33#8
  | .ldMemVx x => encodeXkk 0xF#4 x 0x55#8
  | .ldVxMem x => encodeXkk 0xF#4 x 0x65#8

/-- The two bytes of an instruction in memory order (R54). -/
def encodeBytes (i : Instr) : List Byte := [hiByte (encode i), loByte (encode i)]

end Sys2Proof
end

