-- ==== Sys2Proof/Config.lean ====
section
/-! DEFINITION. What is fixed for a run (spec/00_scope.md R4: FONT and the four model switches) and the free values of the environment
(R8: key_in, rnd_in; R6: how many ticks come between two steps). The free values are constants without a body: nothing about them
can be proved (log entries 1 and 2). -/

namespace Sys2Proof

/-- FONT: 16 glyphs of 5 bytes; glyph g lies at addresses 5g to 5g + 4 (R41). -/
abbrev Font := Vector (Vector Byte 5) 16

/-- The default FONT, the table of spec/10_state.md R41 row by row. UNVERIFIED: the table is general knowledge in the spec (log entry 4). -/
def Font.default : Font :=
  #v[#v[0xF0, 0x90, 0x90, 0x90, 0xF0],
     #v[0x20, 0x60, 0x20, 0x20, 0x70],
     #v[0xF0, 0x10, 0xF0, 0x80, 0xF0],
     #v[0xF0, 0x10, 0xF0, 0x10, 0xF0],
     #v[0x90, 0x90, 0xF0, 0x10, 0x10],
     #v[0xF0, 0x80, 0xF0, 0x10, 0xF0],
     #v[0xF0, 0x80, 0xF0, 0x90, 0xF0],
     #v[0xF0, 0x10, 0x20, 0x40, 0x40],
     #v[0xF0, 0x90, 0xF0, 0x90, 0xF0],
     #v[0xF0, 0x90, 0xF0, 0x10, 0xF0],
     #v[0xF0, 0x90, 0xF0, 0x90, 0x90],
     #v[0xE0, 0x90, 0xE0, 0x90, 0xE0],
     #v[0xF0, 0x80, 0x80, 0x80, 0xF0],
     #v[0xE0, 0x90, 0x90, 0x90, 0xE0],
     #v[0xF0, 0x80, 0xF0, 0x80, 0xF0],
     #v[0xF0, 0x80, 0xF0, 0x80, 0x80]]

/-- The parameters fixed for a run (R4): FONT and the four model switches, plain data that the machine carries (log entry 5). -/
structure Config where
  /-- FONT (R41). -/
  font : Font
  /-- HAS_RND: true, `Cxkk` is RND; false, `Cxkk` is a decode failure (D10). -/
  hasRnd : Bool
  /-- SKNP_IDLE_SKIPS: true, SKNP skips also when no key is reported (D28). -/
  sknpIdleSkips : Bool
  /-- BLOCK_MOVES_I: true, the block transfers leave I + x + 1 in I (D12). -/
  blockMovesI : Bool
  /-- PROTECT_LOW: true, the model refuses a program write below 0x200 (D7). -/
  protectLow : Bool
  deriving DecidableEq, Repr

/-- The default setting, which every rule of the spec describes (R4). -/
def Config.default : Config :=
  { font := Font.default, hasRnd := true, sknpIdleSkips := false, blockMovesI := false, protectLow := false }

/-- FREE VALUE: how many tick events come between the step event before and step event number `n` (R6, R154; log entry 2). -/
opaque Config.ticksAt : Nat → Nat

/-- FREE VALUE: what key_in answers at step event number `n` (R8, R160; log entry 1). -/
opaque Config.keyAt : Nat → Option Key

/-- FREE VALUE: the byte on rnd_in at step event number `n` (R8, R183; log entry 1). -/
opaque Config.rndAt : Nat → Byte

end Sys2Proof
end

