-- ==== Sys2Proof/Machine/State.lean ====
section
/-! DEFINITION. The state of the machine: every item of spec/10_state.md R20 under the spec's own name, the parameters of a run
(spec/00_scope.md R4), and the model's own two fields for the inputs that are still to come (log entry 1). Plain data throughout. -/

namespace Sys2Proof.Machine

/-- The four faults of the core (R200). They are latched in `State.fault` by a NEXT state (R209); none of them stops the model. -/
inductive FaultKind where
  /-- The fetched word is no instruction (R201). -/
  | decodeFailure
  /-- CALL with 16 return addresses held (R202). -/
  | stackOverflow
  /-- RET with none held (R203). -/
  | stackUnderflow
  /-- A byte of a fetch or of a data access lies above 0xFFF (R204). -/
  | addressFault
  deriving DecidableEq, Repr

/-- What the FAULT latch holds: which fault, and its 16-bit info value (R36, R200). -/
structure FaultRecord where
  kind : FaultKind
  info : Word
  deriving DecidableEq, Repr

/-- What the environment presents to ONE step event: how many tick events came since the step event before (R6), the answer of key_in
to the one key query the step may make (R160), and the byte on rnd_in (R183). -/
structure Input where
  ticks : Nat
  key : Option Key
  rnd : Byte
  deriving DecidableEq, Repr

/-- The 64 by 32 pixels, row by row: `fb[r][c]` is the pixel of row r and column c, true when set (R31). -/
abbrev FrameBuffer := Vector (Vector Bool 64) 32

/-- MEM as a list of address and byte, in the canonical form `Memory.wf` (Machine/Ops.lean). -/
abbrev Memory := List Host.Cell

structure State where
  /-- V0 to VF (R21); number 15 is the flag register VF (R22). -/
  v : Vector Byte 16
  /-- The index register I (R25). -/
  i : Word
  /-- The program counter (R26). -/
  pc : Word
  /-- STACK[0] to STACK[15] (R29). -/
  stack : Vector Word 16
  /-- SP, the number of return addresses held, 0 to 16 (R29). -/
  sp : Fin 17
  /-- The delay timer DT (R30). -/
  dt : Byte
  /-- The sound timer ST (R30). -/
  st : Byte
  /-- FB (R31). -/
  fb : FrameBuffer
  /-- MEM (R32, R50). -/
  mem : Memory
  /-- KEY, the last observed key (R35). -/
  key : Option Key
  /-- The FAULT latch (R36). -/
  fault : Option FaultRecord
  /-- The parameters of the run (R4); no event changes them (log entry 5). -/
  config : Config
  /-- MODEL'S OWN: the inputs already fixed for the coming step events, in order (log entry 1). -/
  inputs : List Input
  /-- MODEL'S OWN: the number of the coming step event, given to the free values of Config once `inputs` is used up (log entry 1). -/
  clock : Nat
  deriving DecidableEq, Repr

/-- The reasons a step ends in a fault OUTCOME: none. Every fault of the spec is a next state with the FAULT latch set (R209, R210;
log entry 6), and every access outside memory is the latched AddressFault (R53). -/
inductive Fault where
  deriving DecidableEq, Repr

/-- The reasons the model refuses. -/
inductive Refusal where
  /-- Raised by `exec`'s arm of an instruction that has no meaning yet. No arm is one in this model. Safe. -/
  | notModelled (mnemonic : String)
  /-- Raised by LD B,Vx and LD [I],Vx with an address below 0x200 under PROTECT_LOW = true: spec/00_scope.md R4 says that "the model
  refuses it". Never raised in the default setting. Safe. -/
  | protectedLow (address : Word)
  /-- Raised by the reset event for an image of more than 3584 bytes, which R231 puts outside the spec. Never raised by a step. Safe. -/
  | imageTooLong (length : Nat)
  deriving DecidableEq, Repr

/-- The machine after `reset` with the empty image and the default setting (R40, R231; log entries 3 and 12). Memory lists nothing: an
unlisted address reads as its reset byte (`Memory.unlisted`). -/
def State.reset : State :=
  { v := Vector.replicate 16 0x00#8
    i := 0x0000#16
    pc := 0x0200#16
    stack := Vector.replicate 16 0x0000#16
    sp := 0
    dt := 0x00#8
    st := 0x00#8
    fb := Vector.replicate 32 (Vector.replicate 64 false)
    mem := []
    key := none
    fault := none
    config := Config.default
    inputs := []
    clock := 0 }

end Sys2Proof.Machine
end

