-- ==== Sys2Proof/WellFormed.lean ====
section
/-! DEFINITION. The checks on what is given to the machine: which instructions a core with a given setting has (spec/00_scope.md R4),
and which images may be loaded (spec/70_reset_and_hazards.md R231). Field widths need no check: the types carry them. -/

namespace Sys2Proof

/-- The core with setting `c` has the instruction `i`. Every row of R75 is one of its instructions, but RND only under HAS_RND
(R4, D10). -/
def Instr.wf (c : Config) : Instr → Bool
  | .rnd _ _ => c.hasRnd
  | .cls => true
  | .ret => true
  | .jp _ => true
  | .call _ => true
  | .seImm _ _ => true
  | .sneImm _ _ => true
  | .seReg _ _ => true
  | .ldImm _ _ => true
  | .addImm _ _ => true
  | .ldReg _ _ => true
  | .orReg _ _ => true
  | .andReg _ _ => true
  | .xorReg _ _ => true
  | .addReg _ _ => true
  | .subReg _ _ => true
  | .shr _ _ => true
  | .subnReg _ _ => true
  | .shl _ _ => true
  | .sneReg _ _ => true
  | .ldI _ => true
  | .jpV0 _ => true
  | .drw _ _ _ => true
  | .skp _ => true
  | .sknp _ => true
  | .ldVxDt _ => true
  | .ldVxK _ => true
  | .ldDtVx _ => true
  | .ldStVx _ => true
  | .addI _ => true
  | .ldF _ => true
  | .ldB _ => true
  | .ldMemVx _ => true
  | .ldVxMem _ => true

/-- PROG fits from 0x200 to 0xFFF: at most 3584 bytes (R231). -/
def imageFits (prog : List Byte) : Bool := decide (prog.length ≤ 3584)

end Sys2Proof
end

