-- ==== Sys2Proof/Machine/Ops.lean ====
section
/-! DEFINITION. The named operations over the state: memory and its canonical form, registers, PC, the call stack, pixels, the timers and
the tick event, the environment's inputs, TAKING A FAULT, and the reset event that is the only way out of one. -/

namespace Sys2Proof.Machine

/-! Memory (spec/20_memory.md). -/

/-- The first address above memory (R50). -/
def memorySize : Nat := 4096

/-- Where an image is loaded and execution starts (R40, R51, R232). -/
def programBase : Nat := 0x200

/-- The byte `k` of a font, glyph by glyph: `FONT[k]` (R41); 0 past its 80 bytes. -/
def fontByte (f : Font) (k : Nat) : Byte :=
  if h : k < 80 then (f[k / 5]'(by omega))[k % 5]'(by omega) else 0x00#8

/-- What an address that is not listed reads as: its reset byte under the default FONT and the empty image (R40): the font below
0x50, zero elsewhere. -/
def Memory.unlisted (a : Nat) : Byte := fontByte Font.default a

/-- `MemRead(a, 1)` (R52): no side effect. The range is checked by the accesses (R53, `inMemory`). -/
def Memory.read (m : Memory) (a : Nat) : Byte :=
  match m with
  | [] => Memory.unlisted a
  | (k, b) :: rest => if k = a then b else Memory.read rest a

/-- Put a new entry before the first greater address. -/
def Memory.insert (a : Nat) (b : Byte) (m : Memory) : Memory :=
  match m with
  | [] => [(a, b)]
  | (k, c) :: rest => if a < k then (a, b) :: (k, c) :: rest else (k, c) :: Memory.insert a b rest

/-- Drop every entry of one address: it reads as unlisted again. -/
def Memory.erase (a : Nat) (m : Memory) : Memory := m.filter fun cell => cell.1 ≠ a

/-- `MemWrite(a, 1, b)` (R52): that byte and no other; writing the unlisted byte removes the entry. -/
def Memory.write (m : Memory) (a : Nat) (b : Byte) : Memory :=
  if b = Memory.unlisted a then Memory.erase a m else Memory.insert a b (Memory.erase a m)

/-- Bytes at ascending addresses from `a` (R54). -/
def Memory.writeBytes (m : Memory) (a : Nat) (bytes : List Byte) : Memory :=
  match bytes with
  | [] => m
  | b :: rest => Memory.writeBytes (m.write a b) (a + 1) rest

/-- The canonical form from address `lo` on: addresses strictly rising, inside memory, no entry equal to the unlisted byte. -/
def Memory.wfFrom (lo : Nat) (m : Memory) : Bool :=
  match m with
  | [] => true
  | (a, b) :: rest => decide (lo ≤ a) && decide (a < memorySize) && decide (b ≠ Memory.unlisted a) && Memory.wfFrom (a + 1) rest

/-- The canonical form, so that equal memories are equal data. -/
def Memory.wf (m : Memory) : Bool := Memory.wfFrom 0 m

/-- The byte at an address of the state's memory. -/
def State.readByte (s : State) (a : Nat) : Byte := Memory.read s.mem a

/-- `n` bytes at ascending addresses from `a` (R54, R56). -/
def State.readBytes (s : State) (a n : Nat) : List Byte := (List.range n).map fun k => s.readByte (a + k)

/-- Store bytes at ascending addresses from `a` (R54, R56). -/
def State.writeBytes (s : State) (a : Nat) (bytes : List Byte) : State := { s with mem := Memory.writeBytes s.mem a bytes }

/-- The word at PC and PC + 1, big-endian (R54, R71); no alignment condition (R55). -/
def State.fetchWord (s : State) : Word := wordOfBytes (s.readByte s.pc.toNat) (s.readByte (s.pc.toNat + 1))

/-! Registers (spec/10_state.md). -/

/-- `V[x]` (R13, R21). -/
def State.reg (s : State) (x : Reg) : Byte := s.v[x.toNat]'x.isLt

/-- `V[x] <- b` (R13, R21): no register is hard-wired. -/
def State.setReg (s : State) (x : Reg) (b : Byte) : State := { s with v := s.v.set x.toNat b x.isLt }

/-- `I <- w` (R25). -/
def State.setI (s : State) (w : Word) : State := { s with i := w }

/-- `PC <- w` (R26): no range or alignment check (R130). -/
def State.setPc (s : State) (w : Word) : State := { s with pc := w }

/-- `PC <- (PC + 2) mod 2^16` (R72; a skip, R124). -/
def State.advance (s : State) : State := s.setPc (s.pc + 2#16)

/-- `DT <- b` (R30). -/
def State.setDt (s : State) (b : Byte) : State := { s with dt := b }

/-- `ST <- b` (R30). -/
def State.setSt (s : State) (b : Byte) : State := { s with st := b }

/-- `KEY <- k` (R35). -/
def State.setKey (s : State) (k : Option Key) : State := { s with key := k }

/-! The call stack (R29). -/

/-- `STACK[SP] <- w`, `SP <- SP + 1`, for SP below 16 (R122). -/
def State.push (s : State) (w : Word) (h : s.sp.val < 16) : State :=
  { s with stack := s.stack.set s.sp.val w h, sp := ⟨s.sp.val + 1, by omega⟩ }

/-- `SP <- SP - 1` and the value of `STACK[SP]`, for SP above 0 (R123); the slot keeps its value. -/
def State.pop (s : State) (h : 0 < s.sp.val) : Word × State :=
  (s.stack[s.sp.val - 1]'(by omega), { s with sp := ⟨s.sp.val - 1, by omega⟩ })

/-! Pixels (R31). -/

/-- The pixel of row r and column c. -/
def FrameBuffer.pixel (fb : FrameBuffer) (r : Fin 32) (c : Fin 64) : Bool := fb[r][c]

/-- Set the pixel of row r and column c to `b`. -/
def FrameBuffer.setPixel (fb : FrameBuffer) (r : Fin 32) (c : Fin 64) (b : Bool) : FrameBuffer := fb.set r (fb[r].set c b)

/-- Every pixel unset (R140). -/
def FrameBuffer.clear : FrameBuffer := Vector.replicate 32 (Vector.replicate 64 false)

/-- Replace the whole framebuffer. -/
def State.setFb (s : State) (fb : FrameBuffer) : State := { s with fb := fb }

/-! Timers and the tick event (spec/43_timers.md R150). -/

/-- A timer after `n` ticks: down by 1 a tick while above 0, then 0. -/
def countDown (n : Nat) (t : Byte) : Byte := if t = 0x00#8 then 0x00#8 else BitVec.ofNat 8 (t.toNat - n)

/-- One `tick` event: both timers, nothing else, faulted or not (R150, R210). -/
def State.tick (s : State) : State :=
  { s with
    dt := if s.dt = 0x00#8 then s.dt else s.dt - 0x01#8
    st := if s.st = 0x00#8 then s.st else s.st - 0x01#8 }

/-- `n` tick events at once. -/
def State.ticks (s : State) (n : Nat) : State := { s with dt := countDown n s.dt, st := countDown n s.st }

/-! The environment's inputs (spec/00_scope.md R8; log entries 1 and 2). -/

/-- What the environment presents to the coming step event: the first of `inputs`, or free values once none is left. -/
def State.input (s : State) : Input :=
  match s.inputs with
  | i :: _ => i
  | [] => { ticks := Config.ticksAt s.clock, key := Config.keyAt s.clock, rnd := Config.rndAt s.clock }

/-- `KeyQuery()` (R160). -/
def State.keyQuery (s : State) : Option Key := s.input.key

/-- `Rnd()` (R13, R183). -/
def State.rndIn (s : State) : Byte := s.input.rnd

/-- The step event is over: its input is gone and the next one's is presented. -/
def State.nextInput (s : State) : State := { s with inputs := s.inputs.tail, clock := s.clock + 1 }

/-! Taking a fault (spec/60_exceptions.md R209) and leaving the faulted state (R210, R230). -/

/-- The numeric code of a fault (R200). -/
def FaultKind.code : FaultKind → Nat
  | .decodeFailure => 1
  | .stackOverflow => 2
  | .stackUnderflow => 3
  | .addressFault => 4

/-- `raise F(info)`: the latch is set and nothing else changes; no handler, no vector, nothing saved (R209). What the step did before,
moving PC past the instruction, stands (R72). -/
def State.raise (s : State) (kind : FaultKind) (info : Word) : State := { s with fault := some { kind := kind, info := info } }

/-- The port fault_out: the code and info of the latch (R9, R200). -/
def State.faultOut (s : State) : Option (Nat × Word) := s.fault.map fun f => (f.kind.code, f.info)

/-- The port fb_out: FB, read-only (R9). -/
def State.fbOut (s : State) : FrameBuffer := s.fb

/-- Memory after reset: FONT from 0x000, the image from 0x200, zero elsewhere (R40). -/
def resetMemory (f : Font) (prog : List Byte) : Memory :=
  Memory.writeBytes (Memory.writeBytes [] 0 ((List.range 80).map (fontByte f))) programBase prog

/-- The `reset(PROG)` event (R230): every item of R20 at its value of R40, whatever the state was; there is no return from a fault but
this (R211). The parameters and the environment's inputs are no items of R20 and stay (log entry 13). -/
def State.load (s : State) (prog : List Byte) : State :=
  { State.reset with mem := resetMemory s.config.font prog, config := s.config, inputs := s.inputs, clock := s.clock }

/-- Where the next fetch reads, with what a fetch needs: a running core (FAULT `none`) and a PC with both bytes in memory. A PC past
0xFFE goes back to the reset entry point 0x200 (log entry 12). -/
def State.readyToFetch (s : State) : State :=
  { s with fault := none, pc := if s.pc.toNat ≤ 0xFFE then s.pc else 0x0200#16 }

/-- An instruction word stored where the next step fetches it, high byte first (R54). -/
def State.placeWord (s : State) (w : Word) : State := s.readyToFetch.writeBytes s.readyToFetch.pc.toNat [hiByte w, loByte w]

end Sys2Proof.Machine
end

