-- ==== Sys2Proof/Machine/Flags.lean ====
section
/-! DEFINITION. VF as the flag: what each instruction writes to it and when (spec/10_state.md R22, R23, R24; spec/40_alu.md R111). -/

namespace Sys2Proof.Machine

/-- VF, `V[15]` (R22). -/
def flagReg : Reg := 0xF#4

/-- A flag is written as exactly 0x00 or 0x01 (R22). -/
def flagByte (f : Bool) : Byte := if f then 0x01#8 else 0x00#8

/-- `V[15] <- flag` (R22). -/
def State.setFlag (s : State) (f : Bool) : State := s.setReg flagReg (flagByte f)

/-- The result first, the flag second, so that with x = 15 VF ends as the flag (R24, C1). -/
def State.setResult (s : State) (x : Reg) (result : Byte) (flag : Bool) : State := (s.setReg x result).setFlag flag

/-- The exact sum exceeds 255 (R106). -/
def carryOut (a b : Byte) : Bool := decide (a.toNat + b.toNat > 255)

/-- `a - b` does not borrow (R107, R109). -/
def noBorrow (a b : Byte) : Bool := decide (a.toNat ≥ b.toNat)

/-- Bit 0, which SHR shifts out (R108). -/
def lowBit (a : Byte) : Bool := a.getLsbD 0

/-- Bit 7, which SHL shifts out (R110). -/
def highBit (a : Byte) : Bool := a.getLsbD 7

end Sys2Proof.Machine
end

