-- ==== Sys2Proof/Machine/Operands.lean ====
section
/-! DEFINITION. The operand forms: zero-extended immediates (spec/30_encoding.md R80), the one addressing mode I + k with its range check
(spec/20_memory.md R53, R58), the register block V0 to Vx (spec/45_index_memory.md R181, R182), decimal digits (R180), and the key
compare (spec/44_input.md R161). -/

namespace Sys2Proof.Machine

/-- `zext_16(nnn)` (R80). -/
def extendAddr (nnn : Addr) : Word := nnn.setWidth 16

/-- `zext_16(V[x])` (R171). -/
def extendByte (b : Byte) : Word := b.setWidth 16

/-- `zext_8(k)` (R161, R163). -/
def extendKey (k : Key) : Byte := k.setWidth 8

/-- All `len` bytes from `base` lie in memory, in natural-number arithmetic; no byte, no condition (R53). -/
def inMemory (base : Word) (len : Nat) : Bool := decide (len = 0) || decide (base.toNat + len ≤ memorySize)

/-- Every data access: the AddressFault of the whole range before any effect, with the base as info (R53, R204, R209). -/
def guardAccess (base : Word) (len : Nat) (s : State) (body : Host.Outcome State Fault Refusal) : Host.Outcome State Fault Refusal :=
  if inMemory base len then body else .next (s.raise .addressFault base)

/-- A program write from `base`: performed (R57), but refused below 0x200 under PROTECT_LOW (R4, D7; log entry 8). -/
def guardLow (base : Word) (s : State) (body : Host.Outcome State Fault Refusal) : Host.Outcome State Fault Refusal :=
  if s.config.protectLow && decide (base.toNat < programBase) then .refused (.protectedLow base) else body

/-- How many registers V0 to Vx are (R181, R182). -/
def blockLength (x : Reg) : Nat := x.toNat + 1

/-- V0 to Vx in ascending order (R181). -/
def State.regBlock (s : State) (x : Reg) : List Byte := (List.range (blockLength x)).map fun k => s.reg (BitVec.ofNat 4 k)

/-- `V[k] <- MemRead(a + k)` for each k below n, in ascending order (R182); the loads write no memory, so each reads
what memory held before. -/
def State.loadBlock (s : State) (a : Nat) (n : Nat) : State :=
  match n with
  | 0 => s
  | k + 1 => (s.loadBlock a k).setReg (BitVec.ofNat 4 k) (s.readByte (a + k))

/-- I after a block transfer of V0 to Vx: unchanged (R181, R182), or I + x + 1 under BLOCK_MOVES_I (D12; log entry 9). -/
def State.moveI (s : State) (x : Reg) : State :=
  if s.config.blockMovesI then s.setI (s.i + BitVec.ofNat 16 (blockLength x)) else s

/-- Hundreds, tens and ones of an unsigned byte (R180). -/
def decimalDigits (b : Byte) : List Byte :=
  [BitVec.ofNat 8 (b.toNat / 100), BitVec.ofNat 8 (b.toNat / 10 % 10), BitVec.ofNat 8 (b.toNat % 10)]

/-- The address of the font glyph for the low hexadecimal digit of a byte: 5 times the digit (R172). -/
def glyphAddress (b : Byte) : Word := BitVec.ofNat 16 (5 * (b.extractLsb' 0 4).toNat)

/-- `KEY <- some k` if the query reported a key; otherwise KEY as it was (R160). -/
def State.recordKey (s : State) (q : Option Key) : State :=
  match q with
  | some k => s.setKey (some k)
  | none => s

/-- A taken key skip: PC goes on by 2 and KEY is cleared (R161, R162, R35). -/
def State.keySkip (s : State) : State := s.advance.setKey none

end Sys2Proof.Machine
end

