-- ==== Sys2Proof/Machine/Alu.lean ====
section
/-! DEFINITION. Arithmetic and logic (spec/40_alu.md). PC is already past the instruction (R72); none of these can fault (R112). -/

namespace Sys2Proof.Machine

/-- LD Vx,kk (R100). -/
def execLdImm (x : Reg) (kk : Byte) (s : State) : Host.Outcome State Fault Refusal := .next (s.setReg x kk)

/-- ADD Vx,kk: modulo 256, no flag (R101). -/
def execAddImm (x : Reg) (kk : Byte) (s : State) : Host.Outcome State Fault Refusal := .next (s.setReg x (s.reg x + kk))

/-- LD Vx,Vy (R102). -/
def execLdReg (x y : Reg) (s : State) : Host.Outcome State Fault Refusal := .next (s.setReg x (s.reg y))

/-- OR Vx,Vy (R103). -/
def execOrReg (x y : Reg) (s : State) : Host.Outcome State Fault Refusal := .next (s.setReg x (s.reg x ||| s.reg y))

/-- AND Vx,Vy (R104). -/
def execAndReg (x y : Reg) (s : State) : Host.Outcome State Fault Refusal := .next (s.setReg x (s.reg x &&& s.reg y))

/-- XOR Vx,Vy (R105). -/
def execXorReg (x y : Reg) (s : State) : Host.Outcome State Fault Refusal := .next (s.setReg x (s.reg x ^^^ s.reg y))

/-- ADD Vx,Vy: VF is the carry (R106). -/
def execAddReg (x y : Reg) (s : State) : Host.Outcome State Fault Refusal :=
  .next (s.setResult x (s.reg x + s.reg y) (carryOut (s.reg x) (s.reg y)))

/-- SUB Vx,Vy: VF is 1 when Vx is not below Vy (R107). -/
def execSubReg (x y : Reg) (s : State) : Host.Outcome State Fault Refusal :=
  .next (s.setResult x (s.reg x - s.reg y) (noBorrow (s.reg x) (s.reg y)))

/-- SHR Vx: VF is the old bit 0; the field y is ignored (R108). -/
def execShr (x _y : Reg) (s : State) : Host.Outcome State Fault Refusal :=
  .next (s.setResult x (s.reg x >>> 1) (lowBit (s.reg x)))

/-- SUBN Vx,Vy: Vy - Vx, VF is 1 when Vy is not below Vx (R109). -/
def execSubnReg (x y : Reg) (s : State) : Host.Outcome State Fault Refusal :=
  .next (s.setResult x (s.reg y - s.reg x) (noBorrow (s.reg y) (s.reg x)))

/-- SHL Vx: VF is the old bit 7; the field y is ignored (R110). -/
def execShl (x _y : Reg) (s : State) : Host.Outcome State Fault Refusal :=
  .next (s.setResult x (s.reg x <<< 1) (highBit (s.reg x)))

end Sys2Proof.Machine
end

