-- ==== Sys2Proof/Machine/Control.lean ====
section
/-! DEFINITION. Control flow and the call stack (spec/41_control.md). PC on entry is A + 2, A the instruction's address (R72). -/

namespace Sys2Proof.Machine

/-- JP nnn (R120). -/
def execJp (nnn : Addr) (s : State) : Host.Outcome State Fault Refusal := .next (s.setPc (extendAddr nnn))

/-- JP V0,nnn: the 16-bit sum, not reduced to 12 bits (R121). -/
def execJpV0 (nnn : Addr) (s : State) : Host.Outcome State Fault Refusal :=
  .next (s.setPc (extendByte (s.reg 0x0#4) + extendAddr nnn))

/-- CALL nnn: the capacity test comes before the push (R122, R202, C5). -/
def execCall (nnn : Addr) (s : State) : Host.Outcome State Fault Refusal :=
  if h : s.sp.val < 16 then .next ((s.push s.pc h).setPc (extendAddr nnn))
  else .next (s.raise .stackOverflow (extendAddr nnn))

/-- RET (R123, R203). -/
def execRet (s : State) : Host.Outcome State Fault Refusal :=
  if h : 0 < s.sp.val then .next ((s.pop h).2.setPc (s.pop h).1)
  else .next (s.raise .stackUnderflow 0x0000#16)

/-- A skip: PC goes on by 2 when the condition holds (R124). -/
def skipIf (c : Bool) (s : State) : Host.Outcome State Fault Refusal := .next (if c then s.advance else s)

/-- SE Vx,kk (R124). -/
def execSeImm (x : Reg) (kk : Byte) (s : State) : Host.Outcome State Fault Refusal := skipIf (decide (s.reg x = kk)) s

/-- SNE Vx,kk (R125). -/
def execSneImm (x : Reg) (kk : Byte) (s : State) : Host.Outcome State Fault Refusal := skipIf (decide (s.reg x ≠ kk)) s

/-- SE Vx,Vy (R126). -/
def execSeReg (x y : Reg) (s : State) : Host.Outcome State Fault Refusal := skipIf (decide (s.reg x = s.reg y)) s

/-- SNE Vx,Vy (R127). -/
def execSneReg (x y : Reg) (s : State) : Host.Outcome State Fault Refusal := skipIf (decide (s.reg x ≠ s.reg y)) s

end Sys2Proof.Machine
end

