-- ==== Sys2Proof/Machine/Display.lean ====
section
/-! DEFINITION. Display (spec/42_display.md): CLS and DRW. -/

namespace Sys2Proof.Machine

/-- A picture being drawn on and whether a pixel has gone from set to unset. -/
abbrev Canvas := FrameBuffer × Bool

/-- XOR one sprite bit into one pixel; a collision when both were 1 (R141). -/
def drawPixel (r : Fin 32) (c : Fin 64) (bit : Bool) (p : Canvas) : Canvas :=
  match p with
  | (fb, hit) => (fb.setPixel r c (fb.pixel r c ^^ bit), hit || (fb.pixel r c && bit))

/-- The first `n` bits of a sprite row, bit 7 of the byte leftmost, columns taken modulo 64 (R141, D15). -/
def drawBits (x0 : Nat) (r : Fin 32) (b : Byte) (n : Nat) (p : Canvas) : Canvas :=
  match n with
  | 0 => p
  | k + 1 => drawPixel r (Fin.ofNat 64 (x0 + k)) (b.getLsbD (7 - k)) (drawBits x0 r b k p)

/-- Sprite rows at rows y, y + 1, ... modulo 32, each 8 pixels wide (R141). -/
def drawRows (x0 y : Nat) (rows : List Byte) (p : Canvas) : Canvas :=
  match rows with
  | [] => p
  | b :: rest => drawRows x0 (y + 1) rest (drawBits x0 (Fin.ofNat 32 y) b 8 p)

/-- CLS: every pixel unset, VF untouched (R140). -/
def execCls (s : State) : Host.Outcome State Fault Refusal := .next (s.setFb FrameBuffer.clear)

/-- DRW Vx,Vy,n: both coordinates are read before VF is touched; the range is checked before any effect; VF is the collision (R141). -/
def execDrw (x y : Reg) (n : Nibble) (s : State) : Host.Outcome State Fault Refusal :=
  let p := drawRows (s.reg x).toNat (s.reg y).toNat (s.readBytes s.i.toNat n.toNat) (s.fb, false)
  guardAccess s.i n.toNat s (.next ((s.setFb p.1).setFlag p.2))

end Sys2Proof.Machine
end

