-- ==== Sys2Proof/Machine/Index.lean ====
section
/-! DEFINITION. The index register, memory transfer and random (spec/45_index_memory.md). -/

namespace Sys2Proof.Machine

/-- LD I,nnn (R170). -/
def execLdI (nnn : Addr) (s : State) : Host.Outcome State Fault Refusal := .next (s.setI (extendAddr nnn))

/-- ADD I,Vx: modulo 2^16, VF not written (R171). -/
def execAddI (x : Reg) (s : State) : Host.Outcome State Fault Refusal := .next (s.setI (s.i + extendByte (s.reg x)))

/-- LD F,Vx (R172). -/
def execLdF (x : Reg) (s : State) : Host.Outcome State Fault Refusal := .next (s.setI (glyphAddress (s.reg x)))

/-- LD B,Vx (R180). -/
def execLdB (x : Reg) (s : State) : Host.Outcome State Fault Refusal :=
  guardAccess s.i 3 s (guardLow s.i s (.next (s.writeBytes s.i.toNat (decimalDigits (s.reg x)))))

/-- LD [I],Vx (R181). -/
def execLdMemVx (x : Reg) (s : State) : Host.Outcome State Fault Refusal :=
  guardAccess s.i (blockLength x) s (guardLow s.i s (.next ((s.writeBytes s.i.toNat (s.regBlock x)).moveI x)))

/-- LD Vx,[I] (R182). -/
def execLdVxMem (x : Reg) (s : State) : Host.Outcome State Fault Refusal :=
  guardAccess s.i (blockLength x) s (.next ((s.loadBlock s.i.toNat (blockLength x)).moveI x))

/-- RND Vx,kk: the byte on rnd_in, masked (R183). -/
def execRnd (x : Reg) (kk : Byte) (s : State) : Host.Outcome State Fault Refusal := .next (s.setReg x (s.rndIn &&& kk))

end Sys2Proof.Machine
end

