-- ==== Sys2Proof/Machine/Keys.lean ====
section
/-! DEFINITION. Input (spec/44_input.md): each of the three instructions makes one key query and decides from its answer alone (R160,
R35). -/

namespace Sys2Proof.Machine

/-- SKP Vx: skip when a key is reported and equals all 8 bits of Vx (R161, D18). -/
def execSkp (x : Reg) (s : State) : Host.Outcome State Fault Refusal :=
  .next (match s.keyQuery with
    | some k => if extendKey k = s.reg x then (s.recordKey (some k)).keySkip else s.recordKey (some k)
    | none => s)

/-- SKNP Vx: skip when a key is reported and differs from Vx; without a key no skip (R162, C9), but a skip under SKNP_IDLE_SKIPS
(D28; log entry 7). -/
def execSknp (x : Reg) (s : State) : Host.Outcome State Fault Refusal :=
  .next (match s.keyQuery with
    | some k => if extendKey k ≠ s.reg x then (s.recordKey (some k)).keySkip else s.recordKey (some k)
    | none => if s.config.sknpIdleSkips then s.keySkip else s)

/-- LD Vx,K: the key goes to Vx and KEY; without a key PC goes back to the instruction itself (R163). -/
def execLdVxK (x : Reg) (s : State) : Host.Outcome State Fault Refusal :=
  .next (match s.keyQuery with
    | some k => (s.recordKey (some k)).setReg x (extendKey k)
    | none => s.setPc (s.pc - 2#16))

end Sys2Proof.Machine
end

