-- ==== Sys2Proof/Machine/Timers.lean ====
section
/-! DEFINITION. Timer moves (spec/43_timers.md R151 to R153): plain reads and writes. -/

namespace Sys2Proof.Machine

/-- LD Vx,DT (R151). -/
def execLdVxDt (x : Reg) (s : State) : Host.Outcome State Fault Refusal := .next (s.setReg x s.dt)

/-- LD DT,Vx (R152). -/
def execLdDtVx (x : Reg) (s : State) : Host.Outcome State Fault Refusal := .next (s.setDt (s.reg x))

/-- LD ST,Vx (R153). -/
def execLdStVx (x : Reg) (s : State) : Host.Outcome State Fault Refusal := .next (s.setSt (s.reg x))

end Sys2Proof.Machine
end

