-- ==== Sys2Proof/Machine/Cycle.lean ====
section
/-! DEFINITION. The step event (spec/30_encoding.md R70) and one transition of the machine: the ticks since the last step event, then
the step event (spec/00_scope.md R6; log entry 2). -/

namespace Sys2Proof.Machine

/-- Apply a function to the state of a next outcome. -/
def mapNext (f : State → State) : Host.Outcome State Fault Refusal → Host.Outcome State Fault Refusal
  | .next s => .next (f s)
  | .fault r => .fault r
  | .refused r => .refused r

/-- Both bytes at PC lie in memory (R53). -/
def State.fetchInMemory (s : State) : Bool := decide (s.pc.toNat ≤ 0xFFE)

/-- Decode and execute a fetched word, PC being past it already: an instruction of this core is executed, anything else raises
DecodeFailure with the word (R70, R77, R201). -/
def dispatchWord (w : Word) (s : State) : Host.Outcome State Fault Refusal :=
  match decodeWord w with
  | .ok i => if i.wf s.config then exec i s else .next (s.raise .decodeFailure w)
  | .error _ => .next (s.raise .decodeFailure w)

/-- The body of a `step` event, in R70's order: nothing when faulted (R210); the fetch and its AddressFault, PC staying A (R53);
PC past the word (R72); decode and execute. -/
def stepBody (s : State) : Host.Outcome State Fault Refusal :=
  if s.fault.isSome then .next s
  else if s.fetchInMemory then dispatchWord s.fetchWord s.advance
  else .next (s.raise .addressFault s.pc)

/-- One `step` event, after which the environment presents the next event's input. -/
def stepEvent (s : State) : Host.Outcome State Fault Refusal := mapNext State.nextInput (stepBody s)

/-- One transition of the machine: the ticks that came since the last step event, then a step event (R6, R7). -/
def cycle (s : State) : Host.Outcome State Fault Refusal := stepEvent (s.ticks s.input.ticks)

end Sys2Proof.Machine
end

