-- ==== Sys2Proof/Machine/Step.lean ====
section
/-! DEFINITION. The host's step, and the word placed where it fetches. -/

namespace Sys2Proof.Machine

/-- One transition of the machine (Machine/Cycle.lean). -/
def step (s : State) : Host.Outcome State Fault Refusal := Sys2Proof.Machine.cycle s

/-- `s` with an instruction, numbered as spec/opcode_table.json numbers it, where the next step fetches (log entry 12). -/
def State.withFetchWord (s : State) (nbits w : Nat) : State := s.placeWord (BitVec.ofNat 16 (w % 2 ^ nbits))

end Sys2Proof.Machine
end

