-- ==== Sys2Proof/Machine/Events.lean ====
section
/-! DEFINITION. The three events of spec/00_scope.md R5 one by one, and the rule for strobes presented at the same instant (R7). -/

namespace Sys2Proof.Machine

/-- The events that change state; nothing else does (R5). -/
inductive Event where
  /-- `reset(PROG)` (R230). -/
  | reset (prog : List Byte)
  /-- `step` (R70). -/
  | step
  /-- `tick` (R150). -/
  | tick
  deriving DecidableEq, Repr

/-- One event, one atomic transition (R6). An image longer than 3584 bytes is outside the spec and refused (R231; log entry 11). -/
def applyEvent (e : Event) (s : State) : Host.Outcome State Fault Refusal :=
  match e with
  | .reset prog => if imageFits prog then .next (s.load prog) else .refused (.imageTooLong prog.length)
  | .step => stepEvent s
  | .tick => .next s.tick

/-- A run: events in the order they arrive, any interleaving (R6), until a refusal. -/
def runEvents (es : List Event) (s : State) : Host.Outcome State Fault Refusal :=
  match es with
  | [] => .next s
  | e :: rest =>
    match applyEvent e s with
    | .next t => runEvents rest t
    | .fault r => .fault r
    | .refused r => .refused r

/-- The order of strobes presented at one instant: reset wins and the others are dropped; otherwise tick, then step (R7). -/
def coincident (reset : Option (List Byte)) (step tick : Bool) : List Event :=
  match reset with
  | some prog => [.reset prog]
  | none => (if tick then [.tick] else []) ++ (if step then [.step] else [])

end Sys2Proof.Machine
end

