-- ==== Sys2Proof/Safety.lean ====
section
/-! DEFINITION. What counts as a safe state and run, in the terms the statements use. -/

namespace Sys2Proof.Machine

/-- The core is running: the FAULT latch is clear (spec/10_state.md R36). A faulted state is never a final state of a successful run
(spec/60_exceptions.md R209). -/
def State.running (s : State) : Bool := s.fault.isNone

/-- Memory is in its canonical form, with no entry outside 0x000 to 0xFFF. -/
def State.memoryCanonical (s : State) : Bool := Memory.wf s.mem

/-- PC is at most 0x10FE and every return address held is at most 0x1000 (spec/10_state.md R28). -/
def State.pcBounded (s : State) : Prop :=
  s.pc.toNat ≤ 0x10FE ∧ ∀ j : Fin 16, j.val < s.sp.val → s.stack[j].toNat ≤ 0x1000

/-- The step event at this state fetches and decodes `i`: the core runs, both bytes are in memory, and the core has the instruction
(spec/30_encoding.md R70). -/
def State.executes (s : State) (i : Instr) : Prop :=
  s.fault = none ∧ s.pc.toNat ≤ 0xFFE ∧ decodeWord s.fetchWord = .ok i ∧ i.wf s.config = true

/-- The word that stands where the next step fetches is no instruction of this core (spec/30_encoding.md R77; R4 for HAS_RND). -/
def State.illegalWord (s : State) : Prop := ∀ i, decodeWord s.fetchWord = .ok i → i.wf s.config = false

/-- The sprite bit that `DRW Vx,Vy,n` puts on the pixel of row r and column c, false where the sprite does not reach: the pixel lies
(r - Vy) mod 32 rows below and (c - Vx) mod 64 columns right of the sprite's first bit (spec/42_display.md R141). -/
def State.spriteBit (s : State) (x y : Reg) (n : Nibble) (r : Fin 32) (c : Fin 64) : Bool :=
  let row := (r.val + 256 - (s.reg y).toNat) % 32
  let col := (c.val + 256 - (s.reg x).toNat) % 64
  decide (row < n.toNat) && decide (col < 8) && (s.readByte (s.i.toNat + row)).getLsbD (7 - col)

/-- The general registers an instruction may write: its destination, V0 to Vx for a block load, and VF where it sets the flag
(spec/10_state.md R21, R23). -/
def mayWrite (i : Instr) (k : Reg) : Bool :=
  match i with
  | .ldImm x _ => decide (k = x)
  | .addImm x _ => decide (k = x)
  | .ldReg x _ => decide (k = x)
  | .orReg x _ => decide (k = x)
  | .andReg x _ => decide (k = x)
  | .xorReg x _ => decide (k = x)
  | .addReg x _ => decide (k = x) || decide (k = 0xF#4)
  | .subReg x _ => decide (k = x) || decide (k = 0xF#4)
  | .shr x _ => decide (k = x) || decide (k = 0xF#4)
  | .subnReg x _ => decide (k = x) || decide (k = 0xF#4)
  | .shl x _ => decide (k = x) || decide (k = 0xF#4)
  | .rnd x _ => decide (k = x)
  | .drw _ _ _ => decide (k = 0xF#4)
  | .ldVxDt x => decide (k = x)
  | .ldVxK x => decide (k = x)
  | .ldVxMem x => decide (k.toNat ≤ x.toNat)
  | .cls => false
  | .ret => false
  | .jp _ => false
  | .call _ => false
  | .seImm _ _ => false
  | .sneImm _ _ => false
  | .seReg _ _ => false
  | .sneReg _ _ => false
  | .ldI _ => false
  | .jpV0 _ => false
  | .skp _ => false
  | .sknp _ => false
  | .ldDtVx _ => false
  | .ldStVx _ => false
  | .addI _ => false
  | .ldF _ => false
  | .ldB _ => false
  | .ldMemVx _ => false

/-- What an instruction samples from the environment (spec/44_input.md R160; spec/00_scope.md R8): the key query, the random byte, or
nothing. -/
inductive Sample where
  | key
  | rnd
  | nothing
  deriving DecidableEq, Repr

/-- The three input instructions make one key query each and RND samples rnd_in; no other instruction samples anything
(R160, R183). -/
def samples : Instr → Sample
  | .skp _ => .key
  | .sknp _ => .key
  | .ldVxK _ => .key
  | .rnd _ _ => .rnd
  | .cls => .nothing
  | .ret => .nothing
  | .jp _ => .nothing
  | .call _ => .nothing
  | .seImm _ _ => .nothing
  | .sneImm _ _ => .nothing
  | .seReg _ _ => .nothing
  | .ldImm _ _ => .nothing
  | .addImm _ _ => .nothing
  | .ldReg _ _ => .nothing
  | .orReg _ _ => .nothing
  | .andReg _ _ => .nothing
  | .xorReg _ _ => .nothing
  | .addReg _ _ => .nothing
  | .subReg _ _ => .nothing
  | .shr _ _ => .nothing
  | .subnReg _ _ => .nothing
  | .shl _ _ => .nothing
  | .sneReg _ _ => .nothing
  | .ldI _ => .nothing
  | .jpV0 _ => .nothing
  | .drw _ _ _ => .nothing
  | .ldVxDt _ => .nothing
  | .ldDtVx _ => .nothing
  | .ldStVx _ => .nothing
  | .addI _ => .nothing
  | .ldF _ => .nothing
  | .ldB _ => .nothing
  | .ldMemVx _ => .nothing
  | .ldVxMem _ => .nothing

/-- PC after an instruction that did not fault, with A the instruction's address, as the table of spec/10_state.md R27 gives it. -/
def pcAfter (i : Instr) (s : State) : Word :=
  let a := s.pc
  let skipWhen (c : Bool) : Word := if c then a + 4#16 else a + 2#16
  match i with
  | .jp nnn => nnn.setWidth 16
  | .jpV0 nnn => BitVec.ofNat 16 ((s.reg 0x0#4).toNat + nnn.toNat)
  | .call nnn => nnn.setWidth 16
  | .ret => if h : 0 < s.sp.val then s.stack[s.sp.val - 1] else a + 2#16
  | .seImm x kk => skipWhen (decide (s.reg x = kk))
  | .sneImm x kk => skipWhen (decide (s.reg x ≠ kk))
  | .seReg x y => skipWhen (decide (s.reg x = s.reg y))
  | .sneReg x y => skipWhen (decide (s.reg x ≠ s.reg y))
  | .skp x => skipWhen (match s.keyQuery with
    | some k => decide (k.toNat = (s.reg x).toNat)
    | none => false)
  | .sknp x => skipWhen (match s.keyQuery with
    | some k => decide (k.toNat ≠ (s.reg x).toNat)
    | none => s.config.sknpIdleSkips)
  | .ldVxK _ => if s.keyQuery.isSome then a + 2#16 else a
  | .cls => a + 2#16
  | .ldImm _ _ => a + 2#16
  | .addImm _ _ => a + 2#16
  | .ldReg _ _ => a + 2#16
  | .orReg _ _ => a + 2#16
  | .andReg _ _ => a + 2#16
  | .xorReg _ _ => a + 2#16
  | .addReg _ _ => a + 2#16
  | .subReg _ _ => a + 2#16
  | .shr _ _ => a + 2#16
  | .subnReg _ _ => a + 2#16
  | .shl _ _ => a + 2#16
  | .ldI _ => a + 2#16
  | .rnd _ _ => a + 2#16
  | .drw _ _ _ => a + 2#16
  | .ldVxDt _ => a + 2#16
  | .ldDtVx _ => a + 2#16
  | .ldStVx _ => a + 2#16
  | .addI _ => a + 2#16
  | .ldF _ => a + 2#16
  | .ldB _ => a + 2#16
  | .ldMemVx _ => a + 2#16
  | .ldVxMem _ => a + 2#16

end Sys2Proof.Machine
end

