-- ==== Sys2Proof/Certificates/Slice0/Obligations.lean ====
section
/-! DEFINITION. The statements for the provers. PC stands at A + 2 in every statement about `exec` (spec/30_encoding.md R72). A frame
is written `t = { s with f := t.f, … }`: every field but those named is as before, memory, FAULT, the parameters and the inputs
included. Statements about a key or a random byte hold for every answer of the environment, since they hold for every state. -/

open Sys2Proof Sys2Proof.Machine

/-! Encoding (spec/30_encoding.md). -/

/-- Words of every family, written out from R75 and the examples of the rules, decode to the instruction they stand for. -/
def Obligations.SampleWordsDecode : Prop :=
  decodeWord 0x600A#16 = .ok (.ldImm 0x0#4 0x0A#8)
  ∧ decodeWord 0x8014#16 = .ok (.addReg 0x0#4 0x1#4)
  ∧ decodeWord 0x820E#16 = .ok (.shl 0x2#4 0x0#4)
  ∧ decodeWord 0x2300#16 = .ok (.call 0x300#12)
  ∧ decodeWord 0x00EE#16 = .ok .ret
  ∧ decodeWord 0x9120#16 = .ok (.sneReg 0x1#4 0x2#4)
  ∧ decodeWord 0xD345#16 = .ok (.drw 0x3#4 0x4#4 0x5#4)
  ∧ decodeWord 0xF307#16 = .ok (.ldVxDt 0x3#4)
  ∧ decodeWord 0xE0A1#16 = .ok (.sknp 0x0#4)
  ∧ decodeWord 0xF255#16 = .ok (.ldMemVx 0x2#4)
  ∧ decodeWord 0xC30F#16 = .ok (.rnd 0x3#4 0x0F#8)
  ∧ decodeWord 0x0123#16 = .error .class0
  ∧ decodeWord 0x5121#16 = .error .class5

/-- Decoding the word or the bytes of an instruction gives it back, with every operand at every value, the ignored y of the shifts
included, and leaves the bytes after it (R54, R74, R75, R76). -/
def Obligations.DecodeInvertsEncode : Prop :=
  ∀ (i : Instr) (rest : List Byte), decodeWord (encode i) = .ok i ∧ decode (encodeBytes i ++ rest) = .ok (i, rest)

/-- A word that decodes is the encoding of what it decodes to: no bit of a word is dropped (R75, R76). -/
def Obligations.EncodeInvertsDecode : Prop :=
  ∀ (w : Word) (i : Instr), decodeWord w = .ok i → encode i = w

/-- The words that decode to none are exactly those of R77's table, by class (w div 4096), low nibble and low byte; each has one
named refusal. -/
def Obligations.IllegalWordsExactly : Prop :=
  ∀ w : Word,
    (decodeWord w = .error .class0 ↔ w.toNat / 4096 = 0 ∧ w.toNat ≠ 0xE0 ∧ w.toNat ≠ 0xEE)
    ∧ (decodeWord w = .error .class5 ↔ w.toNat / 4096 = 5 ∧ w.toNat % 16 ≠ 0)
    ∧ (decodeWord w = .error .class8 ↔ w.toNat / 4096 = 8 ∧ w.toNat % 16 ∈ [8, 9, 10, 11, 12, 13, 15])
    ∧ (decodeWord w = .error .class9 ↔ w.toNat / 4096 = 9 ∧ w.toNat % 16 ≠ 0)
    ∧ (decodeWord w = .error .classE ↔ w.toNat / 4096 = 14 ∧ w.toNat % 256 ∉ [0x9E, 0xA1])
    ∧ (decodeWord w = .error .classF
        ↔ w.toNat / 4096 = 15 ∧ w.toNat % 256 ∉ [0x07, 0x0A, 0x15, 0x18, 0x1E, 0x29, 0x33, 0x55, 0x65])

/-- The rows of the opcode map are disjoint, and decoding succeeds exactly on the words that match a row (R75, R76; R79, which the spec
derives from R75). -/
def Obligations.OpcodeRowsDecide : Prop :=
  opcodeRows.length = 34
  ∧ (∀ (w : Word) (j k : Fin 34) (rj rk : OpcodeRow), opcodeRows[j.val]? = some rj → opcodeRows[k.val]? = some rk →
      w &&& rj.mask = rj.want → w &&& rk.mask = rk.want → j = k)
  ∧ (∀ w : Word, (∃ i, decodeWord w = .ok i) ↔ ∃ r ∈ opcodeRows, w &&& r.mask = r.want)

/-! Arithmetic and logic (spec/40_alu.md). -/

/-- LD Vx,kk and LD Vx,Vy set Vx and nothing else; VF is an ordinary register here (R100, R102). -/
def Obligations.LoadsSetRegister : Prop :=
  ∀ (s : State) (x : Reg),
    (∀ kk : Byte, ∃ t, exec (.ldImm x kk) s = .next t
      ∧ (∀ k, t.reg k = if k = x then kk else s.reg k) ∧ t = { s with v := t.v })
    ∧ (∀ y : Reg, ∃ t, exec (.ldReg x y) s = .next t
      ∧ (∀ k, t.reg k = if k = x then s.reg y else s.reg k) ∧ t = { s with v := t.v })

/-- ADD Vx,kk wraps modulo 256 and records no carry, x = 15 included (R101). -/
def Obligations.AddImmWrapsWithoutFlag : Prop :=
  ∀ (s : State) (x : Reg) (kk : Byte), ∃ t, exec (.addImm x kk) s = .next t
    ∧ (t.reg x).toNat = ((s.reg x).toNat + kk.toNat) % 256
    ∧ (∀ k, k ≠ x → t.reg k = s.reg k) ∧ t = { s with v := t.v }

/-- OR, AND and XOR work bit by bit and leave VF alone unless it is the destination (R103, R104, R105). -/
def Obligations.BitwiseLeaveFlag : Prop :=
  ∀ (s : State) (x y : Reg),
    (∃ t, exec (.orReg x y) s = .next t ∧ (∀ b, (t.reg x).getLsbD b = ((s.reg x).getLsbD b || (s.reg y).getLsbD b))
      ∧ (∀ k, k ≠ x → t.reg k = s.reg k) ∧ t = { s with v := t.v })
    ∧ (∃ t, exec (.andReg x y) s = .next t ∧ (∀ b, (t.reg x).getLsbD b = ((s.reg x).getLsbD b && (s.reg y).getLsbD b))
      ∧ (∀ k, k ≠ x → t.reg k = s.reg k) ∧ t = { s with v := t.v })
    ∧ (∃ t, exec (.xorReg x y) s = .next t ∧ (∀ b, (t.reg x).getLsbD b = ((s.reg x).getLsbD b ^^ (s.reg y).getLsbD b))
      ∧ (∀ k, k ≠ x → t.reg k = s.reg k) ∧ t = { s with v := t.v })

/-- ADD Vx,Vy: the sum modulo 256, then VF = 1 exactly when the exact sum exceeds 255; with x = 15 the flag stays (R106). -/
def Obligations.AddSetsCarry : Prop :=
  ∀ (s : State) (x y : Reg), ∃ t, exec (.addReg x y) s = .next t
    ∧ (x ≠ 0xF#4 → (t.reg x).toNat = ((s.reg x).toNat + (s.reg y).toNat) % 256)
    ∧ t.reg 0xF#4 = (if (s.reg x).toNat + (s.reg y).toNat > 255 then 0x01#8 else 0x00#8)
    ∧ (∀ k, k ≠ x → k ≠ 0xF#4 → t.reg k = s.reg k) ∧ t = { s with v := t.v }

/-- SUB Vx,Vy and SUBN Vx,Vy: the difference modulo 256, Vx - Vy or Vy - Vx, then VF = 1 exactly when it needed no borrow; with x = 15
the flag stays (R107, R109). -/
def Obligations.SubtractsSetNoBorrow : Prop :=
  ∀ (s : State) (x y : Reg),
    (∃ t, exec (.subReg x y) s = .next t
      ∧ (x ≠ 0xF#4 → (t.reg x).toNat = ((s.reg x).toNat + 256 - (s.reg y).toNat) % 256)
      ∧ t.reg 0xF#4 = (if (s.reg x).toNat ≥ (s.reg y).toNat then 0x01#8 else 0x00#8)
      ∧ (∀ k, k ≠ x → k ≠ 0xF#4 → t.reg k = s.reg k) ∧ t = { s with v := t.v })
    ∧ (∃ t, exec (.subnReg x y) s = .next t
      ∧ (x ≠ 0xF#4 → (t.reg x).toNat = ((s.reg y).toNat + 256 - (s.reg x).toNat) % 256)
      ∧ t.reg 0xF#4 = (if (s.reg y).toNat ≥ (s.reg x).toNat then 0x01#8 else 0x00#8)
      ∧ (∀ k, k ≠ x → k ≠ 0xF#4 → t.reg k = s.reg k) ∧ t = { s with v := t.v })

/-- SHR Vx halves and leaves the old bit 0 in VF; SHL Vx doubles modulo 256 and leaves the old bit 7 in VF; whatever y (R108, R110). -/
def Obligations.ShiftsSetFlagToBitOut : Prop :=
  ∀ (s : State) (x y : Reg),
    (∃ t, exec (.shr x y) s = .next t
      ∧ (x ≠ 0xF#4 → (t.reg x).toNat = (s.reg x).toNat / 2)
      ∧ (t.reg 0xF#4).toNat = (s.reg x).toNat % 2
      ∧ (∀ k, k ≠ x → k ≠ 0xF#4 → t.reg k = s.reg k) ∧ t = { s with v := t.v })
    ∧ (∃ t, exec (.shl x y) s = .next t
      ∧ (x ≠ 0xF#4 → (t.reg x).toNat = (s.reg x).toNat * 2 % 256)
      ∧ (t.reg 0xF#4).toNat = (s.reg x).toNat / 128
      ∧ (∀ k, k ≠ x → k ≠ 0xF#4 → t.reg k = s.reg k) ∧ t = { s with v := t.v })

/-! Control flow (spec/41_control.md). -/

/-- JP nnn goes to nnn; JP V0,nnn goes to the sum of V0 and nnn, not reduced to 12 bits, V0 being read whatever the digit x of nnn is
(R120, R121). -/
def Obligations.JumpsSetPc : Prop :=
  ∀ (s : State) (nnn : Addr),
    (∃ t, exec (.jp nnn) s = .next t ∧ t.pc.toNat = nnn.toNat ∧ t = { s with pc := t.pc })
    ∧ (∃ t, exec (.jpV0 nnn) s = .next t ∧ t.pc.toNat = (s.reg 0x0#4).toNat + nnn.toNat ∧ t = { s with pc := t.pc })

/-- CALL nnn: below 16 entries it pushes PC, which is A + 2, and jumps; with 16 it raises StackOverflow(nnn), nothing pushed and PC
staying A + 2 (R122, R202). -/
def Obligations.CallPushesOrOverflows : Prop :=
  ∀ (s : State) (nnn : Addr),
    (s.sp.val < 16 → ∃ t, exec (.call nnn) s = .next t ∧ t.pc.toNat = nnn.toNat ∧ t.sp.val = s.sp.val + 1
      ∧ (∀ j : Fin 16, t.stack[j] = if j.val = s.sp.val then s.pc else s.stack[j])
      ∧ t = { s with pc := t.pc, sp := t.sp, stack := t.stack })
    ∧ (s.sp.val = 16 → exec (.call nnn) s
        = .next { s with fault := some { kind := .stackOverflow, info := nnn.setWidth 16 } })

/-- RET: with an entry it pops the newest into PC and leaves its slot as it was; with none it raises StackUnderflow(0), PC staying
A + 2 (R123, R203). -/
def Obligations.RetPopsOrUnderflows : Prop :=
  ∀ s : State,
    (0 < s.sp.val → ∃ t, exec .ret s = .next t ∧ t.sp.val + 1 = s.sp.val
      ∧ (∀ j : Fin 16, j.val + 1 = s.sp.val → t.pc = s.stack[j]) ∧ t = { s with pc := t.pc, sp := t.sp })
    ∧ (s.sp.val = 0 → exec .ret s = .next { s with fault := some { kind := .stackUnderflow, info := 0x0000#16 } })

/-- CALL and then, at the target, RET: PC is the return address, the address after the CALL, the depth is what it was, and nothing
else differs but the one dead slot that CALL wrote (R122, R123, R29; the property of section 8 quoted in R123). -/
def Obligations.CallThenRetReturns : Prop :=
  ∀ (s : State) (nnn : Addr), s.sp.val < 16 →
    ∃ t u, exec (.call nnn) s = .next t ∧ exec .ret t.advance = .next u ∧ u.pc = s.pc ∧ u.sp = s.sp
      ∧ (∀ j : Fin 16, j.val ≠ s.sp.val → u.stack[j] = s.stack[j]) ∧ u = { s with stack := u.stack }

/-- SE and SNE, immediate and of two registers: PC goes on by two further bytes exactly when the condition holds
(R124, R125, R126, R127). -/
def Obligations.SkipsOnCondition : Prop :=
  ∀ (s : State) (x : Reg),
    (∀ kk : Byte,
      exec (.seImm x kk) s = .next { s with pc := if (s.reg x).toNat = kk.toNat then s.pc + 2#16 else s.pc }
      ∧ exec (.sneImm x kk) s = .next { s with pc := if (s.reg x).toNat = kk.toNat then s.pc else s.pc + 2#16 })
    ∧ (∀ y : Reg,
      exec (.seReg x y) s = .next { s with pc := if (s.reg x).toNat = (s.reg y).toNat then s.pc + 2#16 else s.pc }
      ∧ exec (.sneReg x y) s = .next { s with pc := if (s.reg x).toNat = (s.reg y).toNat then s.pc else s.pc + 2#16 })

/-! Display (spec/42_display.md). -/

/-- CLS unsets every pixel and leaves VF (R140). -/
def Obligations.ClsClearsEveryPixel : Prop :=
  ∀ s : State, ∃ t, exec .cls s = .next t ∧ (∀ r c, t.fb.pixel r c = false) ∧ t = { s with fb := t.fb }

/-- DRW: every pixel is XORed with the sprite bit that falls on it, columns modulo 64 and rows modulo 32; VF = 1 exactly when a set
pixel met a set bit; with n = 0 no address is looked at; a sprite that leaves memory raises AddressFault(I) and changes no pixel and
not VF (R141). -/
def Obligations.DrwXorsSprite : Prop :=
  ∀ (s : State) (x y : Reg) (n : Nibble),
    ((n.toNat = 0 ∨ s.i.toNat + n.toNat - 1 ≤ 0xFFF) → ∃ t, exec (.drw x y n) s = .next t
      ∧ (∀ r c, t.fb.pixel r c = (s.fb.pixel r c ^^ s.spriteBit x y n r c))
      ∧ t.reg 0xF#4 = (if ∃ r c, s.fb.pixel r c = true ∧ s.spriteBit x y n r c = true then 0x01#8 else 0x00#8)
      ∧ (∀ k, k ≠ 0xF#4 → t.reg k = s.reg k) ∧ t = { s with fb := t.fb, v := t.v })
    ∧ (1 ≤ n.toNat → s.i.toNat + n.toNat - 1 > 0xFFF →
      exec (.drw x y n) s = .next { s with fault := some { kind := .addressFault, info := s.i } })

/-- Drawing the same sprite twice at the same place restores the framebuffer; if the first draw changed it without a collision, the
second reports one (the property of section 8 quoted in R141; VF is no coordinate, or the second draw would be elsewhere). -/
def Obligations.DrawTwiceErases : Prop :=
  ∀ (s : State) (x y : Reg) (n : Nibble), x ≠ 0xF#4 → y ≠ 0xF#4 → (n.toNat = 0 ∨ s.i.toNat + n.toNat - 1 ≤ 0xFFF) →
    ∃ t u, exec (.drw x y n) s = .next t ∧ exec (.drw x y n) t = .next u ∧ u.fb = s.fb
      ∧ (t.fb ≠ s.fb → t.reg 0xF#4 = 0x00#8 → u.reg 0xF#4 = 0x01#8)

/-! Timers (spec/43_timers.md). -/

/-- LD Vx,DT, LD DT,Vx and LD ST,Vx are plain moves (R151, R152, R153). -/
def Obligations.TimerMoves : Prop :=
  ∀ (s : State) (x : Reg),
    (∃ t, exec (.ldVxDt x) s = .next t ∧ (∀ k, t.reg k = if k = x then s.dt else s.reg k) ∧ t = { s with v := t.v })
    ∧ exec (.ldDtVx x) s = .next { s with dt := s.reg x }
    ∧ exec (.ldStVx x) s = .next { s with st := s.reg x }

/-- N tick events take min(N, value) off each timer, floored at 0, change nothing else, and are performed whatever FAULT holds
(R150). -/
def Obligations.TicksCountDown : Prop :=
  ∀ (n : Nat) (s : State), ∃ t, runEvents (List.replicate n .tick) s = .next t
    ∧ t.dt.toNat = s.dt.toNat - min n s.dt.toNat ∧ t.st.toNat = s.st.toNat - min n s.st.toNat
    ∧ t = { s with dt := t.dt, st := t.st }

/-! Input (spec/44_input.md). -/

/-- SKP Vx, for every answer of the key query (R161). -/
def Obligations.SkpSkipsOnMatch : Prop :=
  ∀ (s : State) (x : Reg), exec (.skp x) s = .next (match s.keyQuery with
    | some k => if k.toNat = (s.reg x).toNat then { s with pc := s.pc + 2#16, key := none } else { s with key := some k }
    | none => s)

/-- SKNP Vx, for every answer of the key query, in the default setting: no skip when no key is reported (R162). -/
def Obligations.SknpSkipsOnMismatch : Prop :=
  ∀ (s : State) (x : Reg), s.config.sknpIdleSkips = false → exec (.sknp x) s = .next (match s.keyQuery with
    | some k => if k.toNat = (s.reg x).toNat then { s with key := some k } else { s with pc := s.pc + 2#16, key := none }
    | none => s)

/-- Under SKNP_IDLE_SKIPS, SKNP Vx skips when no key is reported too (R4, D28; that KEY is cleared by this skip is DEDUCED, log
entry 7), and does with a key what it does in the default setting. -/
def Obligations.SknpIdleSkips : Prop :=
  ∀ (s : State) (x : Reg), s.config.sknpIdleSkips = true → exec (.sknp x) s = .next (match s.keyQuery with
    | some k => if k.toNat = (s.reg x).toNat then { s with key := some k } else { s with pc := s.pc + 2#16, key := none }
    | none => { s with pc := s.pc + 2#16, key := none })

/-- LD Vx,K, for every answer: the key goes to Vx and KEY, or PC goes back to the instruction's own address (R163). -/
def Obligations.LdVxKWaitsForKey : Prop :=
  ∀ (s : State) (x : Reg),
    (∀ k, s.keyQuery = some k → ∃ t, exec (.ldVxK x) s = .next t ∧ (t.reg x).toNat = k.toNat ∧ t.key = some k
      ∧ (∀ j, j ≠ x → t.reg j = s.reg j) ∧ t = { s with v := t.v, key := t.key })
    ∧ (s.keyQuery = none → exec (.ldVxK x) s = .next { s with pc := s.pc - 2#16 })

/-- A step that waits for a key and finds none changes no state of the core at all: only the environment's input has moved on, and no
tick came (R163's first corner case, which the spec derives from the pseudocode; the input fields are the model's, log entry 1). -/
def Obligations.WaitingStepChangesNothing : Prop :=
  ∀ (s : State) (x : Reg), s.executes (.ldVxK x) → s.input.key = none → s.input.ticks = 0 →
    ∃ t, step s = .next t ∧ t = { s with inputs := t.inputs, clock := t.clock }

/-- The three input instructions depend on the one answer of the key query, RND on the one byte, and every other instruction on
neither (R160; the environment's answers are free, R8; the input fields are the model's, log entry 1). -/
def Obligations.InputsSampledOnce : Prop :=
  ∀ (i : Instr) (s : State) (ins : List Input) (n : Nat),
    (samples i = .key → ({ s with inputs := ins, clock := n } : State).keyQuery = s.keyQuery) →
    (samples i = .rnd → ({ s with inputs := ins, clock := n } : State).rndIn = s.rndIn) →
    exec i { s with inputs := ins, clock := n } = mapNext (fun t => { t with inputs := ins, clock := n }) (exec i s)

/-! The index register, memory transfer and random (spec/45_index_memory.md). -/

/-- LD I,nnn, ADD I,Vx and LD F,Vx: I modulo 2^16, nothing else, VF included (R170, R171, R172). -/
def Obligations.IndexWrites : Prop :=
  ∀ s : State,
    (∀ nnn : Addr, ∃ t, exec (.ldI nnn) s = .next t ∧ t.i.toNat = nnn.toNat ∧ t = { s with i := t.i })
    ∧ (∀ x : Reg, ∃ t, exec (.addI x) s = .next t ∧ t.i.toNat = (s.i.toNat + (s.reg x).toNat) % 65536 ∧ t = { s with i := t.i })
    ∧ (∀ x : Reg, ∃ t, exec (.ldF x) s = .next t ∧ t.i.toNat = 5 * ((s.reg x).toNat % 16) ∧ t = { s with i := t.i })

/-- LD B,Vx: hundreds, tens and ones at I, I + 1 and I + 2, every other byte and I as before; performed below 0x200 too in the default
setting, and from 0x200 on in every setting (R4 lets PROTECT_LOW refuse only below); AddressFault(I) and nothing written when I + 2
leaves memory (R180, R57). -/
def Obligations.LdBStoresDigits : Prop :=
  ∀ (s : State) (x : Reg),
    ((s.config.protectLow = false ∨ 0x200 ≤ s.i.toNat) → s.i.toNat + 2 ≤ 0xFFF → ∃ t, exec (.ldB x) s = .next t
      ∧ (t.readByte s.i.toNat).toNat = (s.reg x).toNat / 100
      ∧ (t.readByte (s.i.toNat + 1)).toNat = (s.reg x).toNat / 10 % 10
      ∧ (t.readByte (s.i.toNat + 2)).toNat = (s.reg x).toNat % 10
      ∧ (∀ a, a < s.i.toNat ∨ s.i.toNat + 2 < a → t.readByte a = s.readByte a)
      ∧ t = { s with mem := t.mem })
    ∧ (s.i.toNat + 2 > 0xFFF → exec (.ldB x) s = .next { s with fault := some { kind := .addressFault, info := s.i } })

/-- LD [I],Vx: V0 to Vx at I to I + x, every other byte, the registers and, in the default setting of BLOCK_MOVES_I, I as before;
performed below 0x200 too in the default setting of PROTECT_LOW, and from 0x200 on in every setting (R4); AddressFault(I) and nothing
written when I + x leaves memory, whatever the setting (R181, R57). -/
def Obligations.BlockStoreWritesRegisters : Prop :=
  ∀ (s : State) (x : Reg),
    (s.config.blockMovesI = false → (s.config.protectLow = false ∨ 0x200 ≤ s.i.toNat) → s.i.toNat + x.toNat ≤ 0xFFF →
      ∃ t, exec (.ldMemVx x) s = .next t
        ∧ (∀ k : Reg, k.toNat ≤ x.toNat → t.readByte (s.i.toNat + k.toNat) = s.reg k)
        ∧ (∀ a, a < s.i.toNat ∨ s.i.toNat + x.toNat < a → t.readByte a = s.readByte a)
        ∧ t = { s with mem := t.mem })
    ∧ (s.i.toNat + x.toNat > 0xFFF → exec (.ldMemVx x) s = .next { s with fault := some { kind := .addressFault, info := s.i } })

/-- LD Vx,[I]: V0 to Vx from I to I + x, VF among them as an ordinary register, the other registers, memory and I as before, in the
default setting; AddressFault(I) and nothing loaded when I + x leaves memory (R182). -/
def Obligations.BlockLoadReadsRegisters : Prop :=
  ∀ (s : State) (x : Reg), s.config.blockMovesI = false →
    (s.i.toNat + x.toNat ≤ 0xFFF → ∃ t, exec (.ldVxMem x) s = .next t
      ∧ (∀ k : Reg, t.reg k = if k.toNat ≤ x.toNat then s.readByte (s.i.toNat + k.toNat) else s.reg k)
      ∧ t = { s with v := t.v })
    ∧ (s.i.toNat + x.toNat > 0xFFF → exec (.ldVxMem x) s = .next { s with fault := some { kind := .addressFault, info := s.i } })

/-- Under BLOCK_MOVES_I both block transfers, the store wherever PROTECT_LOW does not refuse it, do the same and leave I + x + 1, modulo 2^16, in I (R4, D12; the reduction is DEDUCED, log
entry 9). -/
def Obligations.BlockTransferMovesI : Prop :=
  ∀ (s : State) (x : Reg), s.config.blockMovesI = true → s.i.toNat + x.toNat ≤ 0xFFF →
    ((s.config.protectLow = false ∨ 0x200 ≤ s.i.toNat) → ∃ t, exec (.ldMemVx x) s = .next t
      ∧ (∀ k : Reg, k.toNat ≤ x.toNat → t.readByte (s.i.toNat + k.toNat) = s.reg k)
      ∧ (∀ a, a < s.i.toNat ∨ s.i.toNat + x.toNat < a → t.readByte a = s.readByte a)
      ∧ t.i.toNat = s.i.toNat + x.toNat + 1 ∧ t = { s with mem := t.mem, i := t.i })
    ∧ (∃ t, exec (.ldVxMem x) s = .next t
      ∧ (∀ k : Reg, t.reg k = if k.toNat ≤ x.toNat then s.readByte (s.i.toNat + k.toNat) else s.reg k)
      ∧ t.i.toNat = s.i.toNat + x.toNat + 1 ∧ t = { s with v := t.v, i := t.i })

/-- RND Vx,kk: the byte on rnd_in masked with kk, for every byte (R183). -/
def Obligations.RndMasksRandomByte : Prop :=
  ∀ (s : State) (x : Reg) (kk : Byte), ∃ t, exec (.rnd x kk) s = .next t
    ∧ (∀ b, (t.reg x).getLsbD b = (s.rndIn.getLsbD b && kk.getLsbD b))
    ∧ (∀ k, k ≠ x → t.reg k = s.reg k) ∧ t = { s with v := t.v }

/-- Under PROTECT_LOW a store below 0x200 that lies in memory is refused (R4, D7; that the whole instruction is refused is the model's
choice, log entry 8). -/
def Obligations.ProtectLowRefusesStores : Prop :=
  ∀ (s : State) (x : Reg), s.config.protectLow = true → s.i.toNat < 0x200 →
    exec (.ldB x) s = .refused (.protectedLow s.i) ∧ exec (.ldMemVx x) s = .refused (.protectedLow s.i)

/-! Faults (spec/60_exceptions.md) and the step (spec/30_encoding.md R70). -/

/-- The range check of every access, before any effect: a fetch with PC above 0xFFE, DRW with n of at least 1, LD B and the block
transfers with a last byte above 0xFFF raise AddressFault with the base, and nothing else changes but PC moving past a fetched
word; DRW with n = 0 never does (R53, R204). What becomes of the model's own input fields is StepEventUsesOneInput's. -/
def Obligations.AccessesOutsideMemoryFault : Prop :=
  ∀ s : State,
    (s.fault = none → s.pc.toNat > 0xFFE →
      ∃ t, stepEvent s = .next t
        ∧ t = { s with fault := some { kind := .addressFault, info := s.pc }, inputs := t.inputs, clock := t.clock })
    ∧ (∀ x y n, 1 ≤ n.toNat → s.i.toNat + n.toNat - 1 > 0xFFF →
      exec (.drw x y n) s = .next { s with fault := some { kind := .addressFault, info := s.i } })
    ∧ (∀ x, s.i.toNat + 2 > 0xFFF → exec (.ldB x) s = .next { s with fault := some { kind := .addressFault, info := s.i } })
    ∧ (∀ x, s.i.toNat + x.toNat > 0xFFF →
      exec (.ldMemVx x) s = .next { s with fault := some { kind := .addressFault, info := s.i } }
      ∧ exec (.ldVxMem x) s = .next { s with fault := some { kind := .addressFault, info := s.i } })
    ∧ (∀ x y, ∃ t, exec (.drw x y 0x0#4) s = .next t ∧ t.fault = s.fault)

/-- A fetched word that is no instruction of the core raises DecodeFailure with the raw word; PC = A + 2 and nothing else changes
(R201, R77). That this takes in RND under HAS_RND = false rests on R4 and log entry 10 (DEDUCED), and that the step event uses up one
input on log entry 1 (DESIGN CHOICE). -/
def Obligations.IllegalWordRaisesDecodeFailure : Prop :=
  ∀ s : State, s.fault = none → s.pc.toNat ≤ 0xFFE → s.illegalWord →
    stepEvent s = .next { s with
      pc := s.pc + 2#16
      fault := some { kind := .decodeFailure, info := s.fetchWord }
      inputs := s.inputs.tail
      clock := s.clock + 1 }

/-- The instruction word is the byte at PC times 256 plus the byte at PC + 1, read from current memory at any parity of PC (R71). -/
def Obligations.FetchIsBigEndian : Prop :=
  ∀ s : State, s.fetchWord.toNat = 256 * (s.readByte s.pc.toNat).toNat + (s.readByte (s.pc.toNat + 1)).toNat

/-- The bytes a block store leaves at PC are the word the very next fetch reads (R62, which the spec derives from R60
and R71). -/
def Obligations.StoreIsSeenByNextFetch : Prop :=
  ∀ (s : State) (x : Reg), (s.config.protectLow = false ∨ 0x200 ≤ s.i.toNat) →
    1 ≤ x.toNat → s.i = s.pc → s.i.toNat + x.toNat ≤ 0xFFF →
    ∃ t, exec (.ldMemVx x) s = .next t ∧ t.pc = s.pc
      ∧ t.fetchWord.toNat = 256 * (s.reg 0x0#4).toNat + (s.reg 0x1#4).toNat

/-- When the bytes at PC decode to an instruction of the core, the machine's step is that instruction's `exec`, on the state after the
ticks that came before (log entry 2) and with PC past the word; afterwards the environment's input moves on (R70, R72; log entry 1). -/
def Obligations.StepRunsDecodedInstruction : Prop :=
  ∀ (s : State) (i : Instr), s.executes i →
    step s = mapNext State.nextInput (exec i ((s.ticks s.input.ticks).setPc (s.pc + 2#16)))

/-- The machine's step is, event by event, the ticks that came since the last step event and then one step event, one of the
interleavings R6 admits (the model's form of a step, log entry 2). -/
def Obligations.StepIsTicksThenStepEvent : Prop :=
  ∀ s : State, step s = runEvents (List.replicate s.input.ticks .tick ++ [.step]) s

/-- Strobes at the same instant: reset wins over both, and tick comes before step (R7). -/
def Obligations.CoincidentStrobes : Prop :=
  ∀ (s : State) (prog : List Byte) (a b : Bool), imageFits prog = true →
    runEvents (coincident (some prog) a b) s = applyEvent (.reset prog) s
    ∧ runEvents (coincident none true true) s = applyEvent .step s.tick

/-- PC after a step event: the table of R27 for an instruction that did not fault, A + 2 for any fault after the fetch, A for a fetch
that faults and for a step taken while faulted. -/
def Obligations.PcAfterStep : Prop :=
  ∀ s t : State, stepEvent s = .next t →
    (∀ i, s.executes i → t.fault = none → t.pc = pcAfter i s)
    ∧ (s.fault = none → s.pc.toNat ≤ 0xFFE → t.fault ≠ none → t.pc = s.pc + 2#16)
    ∧ (s.fault = none → s.pc.toNat > 0xFFE → t.pc = s.pc)
    ∧ (s.fault ≠ none → t.pc = s.pc)

/-- While FAULT is set a step event changes nothing of the core and a tick counts the timers down; the latch keeps its value under
both, fault_out shows its code (1 to 4, as R200 numbers the faults) and info, and only reset clears it (R210). What becomes of the
model's own input fields is StepEventUsesOneInput's. -/
def Obligations.FaultedCoreIsFrozen : Prop :=
  ∀ (s : State) (f : FaultRecord), s.fault = some f →
    (∃ t, stepEvent s = .next t ∧ t = { s with inputs := t.inputs, clock := t.clock })
    ∧ (∃ t, applyEvent .tick s = .next t ∧ t.fault = some f
        ∧ t.dt.toNat = s.dt.toNat - 1 ∧ t.st.toNat = s.st.toNat - 1 ∧ t = { s with dt := t.dt, st := t.st })
    ∧ (f.kind = .decodeFailure → s.faultOut = some (1, f.info))
    ∧ (f.kind = .stackOverflow → s.faultOut = some (2, f.info))
    ∧ (f.kind = .stackUnderflow → s.faultOut = some (3, f.info))
    ∧ (f.kind = .addressFault → s.faultOut = some (4, f.info))
    ∧ (∀ prog, prog.length ≤ 3584 → ∃ t, applyEvent (.reset prog) s = .next t ∧ t.fault = none)

/-- Along every run, the first fault is the last change of FAULT until a reset (R211, which the spec derives from R210). -/
def Obligations.FirstFaultStays : Prop :=
  ∀ (es : List Event) (s t : State) (f : FaultRecord), (∀ prog, Event.reset prog ∉ es) → s.fault = some f →
    runEvents es s = .next t → t.fault = some f ∧ t = { s with dt := t.dt, st := t.st, inputs := t.inputs, clock := t.clock }

/-- Faults are precise: a step event that raises one has changed nothing but FAULT and PC, PC being A + 2 when the fault was found after
the fetch and A for the fetch's own AddressFault (R209). -/
def Obligations.FaultsArePrecise : Prop :=
  ∀ (s t : State) (f : FaultRecord), stepEvent s = .next t → s.fault = none → t.fault = some f →
    t = { s with pc := t.pc, fault := t.fault, inputs := t.inputs, clock := t.clock }
    ∧ (s.pc.toNat ≤ 0xFFE → t.pc = s.pc + 2#16)
    ∧ (s.pc.toNat > 0xFFE → t.pc = s.pc ∧ f = { kind := .addressFault, info := s.pc })

/-- No instruction raises two different faults, and only CALL, RET and the four accesses through I raise one at all (R205's list, which
the spec derives from the instruction rules); no arithmetic faults (R112, R206). -/
def Obligations.OneFaultPerInstruction : Prop :=
  ∀ (i : Instr) (s t : State) (f : FaultRecord), exec i s = .next t → s.fault = none → t.fault = some f →
    (f.kind = .stackOverflow ∧ ∃ nnn, i = .call nnn)
    ∨ (f.kind = .stackUnderflow ∧ i = .ret)
    ∨ (f.kind = .addressFault
        ∧ ((∃ x y n, i = .drw x y n) ∨ (∃ x, i = .ldB x) ∨ (∃ x, i = .ldMemVx x) ∨ (∃ x, i = .ldVxMem x)))

/-- In the default setting of PROTECT_LOW the machine never stops: every state has a next state (R11, R209, R210). -/
def Obligations.StepNeverStops : Prop :=
  ∀ s : State, s.config.protectLow = false → ∃ t, step s = .next t ∧ t.config = s.config

/-! Whole-machine rules: who writes what. -/

/-- A general register changes only in an instruction that names it as a destination, loads it in a block, or sets VF (R21, R23). -/
def Obligations.RegisterWriters : Prop :=
  ∀ (i : Instr) (s t : State) (k : Reg), exec i s = .next t → t.reg k ≠ s.reg k → mayWrite i k = true

/-- I changes only by LD I,nnn, ADD I,Vx and LD F,Vx, and by a block transfer under BLOCK_MOVES_I (R25); the depth only by CALL and
RET and a stack slot only by CALL (R29); a timer, in an instruction, only by LD DT,Vx and LD ST,Vx (R30); KEY only by the three input
instructions (R35). -/
def Obligations.IndexStackTimerKeyWriters : Prop :=
  ∀ (i : Instr) (s t : State), exec i s = .next t →
    (t.i ≠ s.i → (∃ nnn, i = .ldI nnn) ∨ (∃ x, i = .addI x) ∨ (∃ x, i = .ldF x)
      ∨ (s.config.blockMovesI = true ∧ ((∃ x, i = .ldMemVx x) ∨ ∃ x, i = .ldVxMem x)))
    ∧ (t.sp ≠ s.sp → i = .ret ∨ ∃ nnn, i = .call nnn) ∧ (t.stack ≠ s.stack → ∃ nnn, i = .call nnn)
    ∧ (t.dt ≠ s.dt → ∃ x, i = .ldDtVx x) ∧ (t.st ≠ s.st → ∃ x, i = .ldStVx x)
    ∧ (t.key ≠ s.key → samples i = .key)

/-- A byte of memory changes only by LD B,Vx at I to I + 2 and by LD [I],Vx at I to I + x (R50, R52). -/
def Obligations.MemoryWriters : Prop :=
  ∀ (i : Instr) (s t : State) (a : Nat), exec i s = .next t → t.readByte a ≠ s.readByte a →
    (∃ x, i = .ldB x ∧ s.i.toNat ≤ a ∧ a ≤ s.i.toNat + 2)
    ∨ (∃ x, i = .ldMemVx x ∧ s.i.toNat ≤ a ∧ a ≤ s.i.toNat + x.toNat)

/-- Only CLS, DRW and reset change the framebuffer, over all three events (R142). -/
def Obligations.FramebufferWriters : Prop :=
  ∀ (e : Event) (s t : State), applyEvent e s = .next t → t.fb ≠ s.fb →
    (∃ prog, e = .reset prog)
    ∨ (e = .step ∧ ∃ i, s.executes i ∧ (i = .cls ∨ ∃ x y n, i = .drw x y n))

/-- KEY decides nothing: the step from a state with another KEY ends the same way, with the same next state but for KEY (R35). -/
def Obligations.KeyDecidesNothing : Prop :=
  ∀ (s t : State) (k : Option Key), step s = .next t →
    ∃ u, step { s with key := k } = .next u ∧ u = { t with key := u.key }

/-- ST has no observable effect inside the core: the step from a state with another ST ends the same way, with the same next state but
for ST (R154). -/
def Obligations.SoundTimerDecidesNothing : Prop :=
  ∀ (s t : State) (b : Byte), step s = .next t →
    ∃ u, step { s with st := b } = .next u ∧ u = { t with st := u.st }

/-! Reset (spec/70_reset_and_hazards.md) and invariants. -/

/-- `reset(PROG)`, whatever the state before: every item of R20 at its value of R40 (R230). -/
def Obligations.ResetSetsEveryItem : Prop :=
  ∀ (s : State) (prog : List Byte), prog.length ≤ 3584 → ∃ t, applyEvent (.reset prog) s = .next t
    ∧ t.pc = 0x0200#16 ∧ t.sp = 0 ∧ (∀ j : Fin 16, t.stack[j] = 0x0000#16) ∧ t.dt = 0x00#8 ∧ t.st = 0x00#8
    ∧ (∀ r c, t.fb.pixel r c = false) ∧ (∀ k, t.reg k = 0x00#8) ∧ t.i = 0x0000#16 ∧ t.key = none ∧ t.fault = none
    ∧ (∀ a, a < 0x50 → t.readByte a = fontByte s.config.font a)
    ∧ (∀ a, 0x50 ≤ a → a < 0x200 → t.readByte a = 0x00#8)
    ∧ (∀ k : Fin prog.length, t.readByte (0x200 + k.val) = prog[k])
    ∧ (∀ a, 0x200 + prog.length ≤ a → a ≤ 0xFFF → t.readByte a = 0x00#8)

/-- The model's State.reset is reset with the empty image and the default setting, whatever came before (log entry 12), with PC at the
entry point 0x200 (R232). -/
def Obligations.ResetStateIsEmptyLoad : Prop :=
  ∀ s : State, ({ s with config := Config.default, inputs := [], clock := 0 } : State).load [] = State.reset
    ∧ State.reset.pc = 0x0200#16

/-- The two invariants hold at State.reset, which is the model's choice of the empty image (log entry 12): memory is canonical, a form
that is the model's choice (log entry 15), and PC and the stack are within the bounds that the spec derives in R28. -/
def Obligations.ResetMeetsInvariants : Prop := State.reset.memoryCanonical = true ∧ State.reset.pcBounded

/-- Memory keeps its canonical form in every step, so that it never holds a byte outside 0x000 to 0xFFF (R50; the canonical form is the
model's choice, log entry 15). -/
def Obligations.StepKeepsMemoryCanonical : Prop :=
  ∀ s t : State, s.memoryCanonical = true → step s = .next t → t.memoryCanonical = true

/-- Every step keeps PC at most 0x10FE and every held return address at most 0x1000 (R28, which the spec derives). -/
def Obligations.StepKeepsPcBounded : Prop :=
  ∀ s t : State, s.pcBounded → step s = .next t → t.pcBounded

/-! The model's own input fields. -/

/-- Every step event that has a next state uses up exactly one input of the environment, a faulted or faulting one too: the model's
choice, log entry 1 (R8 leaves what is on the ports open). -/
def Obligations.StepEventUsesOneInput : Prop :=
  ∀ s t : State, stepEvent s = .next t → t.inputs = s.inputs.tail ∧ t.clock = s.clock + 1
end

