-- ==== Sys2Proof/Laws/Encoding.lean ====
section
/-! SUPPORT. Which bit of each format's word comes from where, and so what the decoder's fields read from an encoded word
(spec/30_encoding.md R73, R74). -/

namespace Sys2Proof

theorem encodeNnn_bit (c : BitVec 4) (nnn : Addr) (j : Nat) :
    (encodeNnn c nnn).getLsbD j = if j < 12 then nnn.getLsbD j else c.getLsbD (j - 12) := by
  have h := @BitVec.getLsbD_append 4 12 j c nnn
  exact h.trans (by grind)

theorem encodeXkk_bit (c : BitVec 4) (x : Reg) (kk : Byte) (j : Nat) :
    (encodeXkk c x kk).getLsbD j
      = if j < 8 then kk.getLsbD j else if j < 12 then x.getLsbD (j - 8) else c.getLsbD (j - 12) := by
  have h := @BitVec.getLsbD_append 8 8 j (c ++ x) kk
  have h' := @BitVec.getLsbD_append 4 4 (j - 8) c x
  exact h.trans (by rw [h']; grind)

theorem encodeXyn_bit (c : BitVec 4) (x y : Reg) (d : Nibble) (j : Nat) :
    (encodeXyn c x y d).getLsbD j
      = if j < 4 then d.getLsbD j else if j < 8 then y.getLsbD (j - 4)
        else if j < 12 then x.getLsbD (j - 8) else c.getLsbD (j - 12) := by
  have h := @BitVec.getLsbD_append 12 4 j (c ++ x ++ y) d
  have h' := @BitVec.getLsbD_append 8 4 (j - 4) (c ++ x) y
  have h'' := @BitVec.getLsbD_append 4 4 (j - 4 - 4) c x
  exact h.trans (by rw [h', h'']; grind)

theorem wordOfBytes_bit (hi lo : Byte) (j : Nat) :
    (wordOfBytes hi lo).getLsbD j = if j < 8 then lo.getLsbD j else hi.getLsbD (j - 8) := by
  have h := @BitVec.getLsbD_append 8 8 j hi lo
  exact h.trans (by grind)

@[simp] theorem fieldC_encodeNnn (c : BitVec 4) (nnn : Addr) : fieldC (encodeNnn c nnn) = c := by
  ext i hi; simp [fieldC, encodeNnn_bit]; grind

@[simp] theorem fieldNnn_encodeNnn (c : BitVec 4) (nnn : Addr) : fieldNnn (encodeNnn c nnn) = nnn := by
  ext i hi; simp [fieldNnn, encodeNnn_bit]; grind

@[simp] theorem fieldC_encodeXkk (c : BitVec 4) (x : Reg) (kk : Byte) : fieldC (encodeXkk c x kk) = c := by
  ext i hi; simp [fieldC, encodeXkk_bit]; grind

@[simp] theorem fieldX_encodeXkk (c : BitVec 4) (x : Reg) (kk : Byte) : fieldX (encodeXkk c x kk) = x := by
  ext i hi; simp [fieldX, encodeXkk_bit]; grind

@[simp] theorem fieldKk_encodeXkk (c : BitVec 4) (x : Reg) (kk : Byte) : fieldKk (encodeXkk c x kk) = kk := by
  ext i hi; simp [fieldKk, encodeXkk_bit]; grind

@[simp] theorem fieldC_encodeXyn (c : BitVec 4) (x y : Reg) (d : Nibble) : fieldC (encodeXyn c x y d) = c := by
  ext i hi; simp [fieldC, encodeXyn_bit]; grind

@[simp] theorem fieldX_encodeXyn (c : BitVec 4) (x y : Reg) (d : Nibble) : fieldX (encodeXyn c x y d) = x := by
  ext i hi; simp [fieldX, encodeXyn_bit]; grind

@[simp] theorem fieldY_encodeXyn (c : BitVec 4) (x y : Reg) (d : Nibble) : fieldY (encodeXyn c x y d) = y := by
  ext i hi; simp [fieldY, encodeXyn_bit]; grind

@[simp] theorem fieldD_encodeXyn (c : BitVec 4) (x y : Reg) (d : Nibble) : fieldD (encodeXyn c x y d) = d := by
  ext i hi; simp [fieldD, encodeXyn_bit]; grind

@[simp] theorem wordOfBytes_hi_lo (w : Word) : wordOfBytes (hiByte w) (loByte w) = w := by
  apply BitVec.eq_of_getLsbD_eq
  intro j hj
  rw [wordOfBytes_bit]
  simp [hiByte, loByte]; grind

@[simp] theorem hiByte_wordOfBytes (hi lo : Byte) : hiByte (wordOfBytes hi lo) = hi := by
  ext i h; simp [hiByte, wordOfBytes_bit]; grind

@[simp] theorem loByte_wordOfBytes (hi lo : Byte) : loByte (wordOfBytes hi lo) = lo := by
  ext i h; simp [loByte, wordOfBytes_bit]; grind

/-! A word is its fields put together, in each of the three layouts of R74. -/

theorem word_eq_encodeNnn (w : Word) : w = encodeNnn (fieldC w) (fieldNnn w) := by
  apply BitVec.eq_of_getLsbD_eq
  intro j hj
  rw [encodeNnn_bit]
  simp [fieldC, fieldNnn]; grind

theorem word_eq_encodeXkk (w : Word) : w = encodeXkk (fieldC w) (fieldX w) (fieldKk w) := by
  apply BitVec.eq_of_getLsbD_eq
  intro j hj
  rw [encodeXkk_bit]
  simp [fieldC, fieldX, fieldKk]; grind

theorem word_eq_encodeXyn (w : Word) : w = encodeXyn (fieldC w) (fieldX w) (fieldY w) (fieldD w) := by
  apply BitVec.eq_of_getLsbD_eq
  intro j hj
  rw [encodeXyn_bit]
  simp [fieldC, fieldX, fieldY, fieldD]; grind

/-! The discriminating fields as numbers (R73). -/

theorem fieldC_toNat (w : Word) : (fieldC w).toNat = w.toNat / 4096 := by
  have := w.isLt
  simp [fieldC, BitVec.extractLsb'_toNat, Nat.shiftRight_eq_div_pow]; omega

theorem fieldD_toNat (w : Word) : (fieldD w).toNat = w.toNat % 16 := by simp [fieldD, BitVec.extractLsb'_toNat]

theorem fieldKk_toNat (w : Word) : (fieldKk w).toNat = w.toNat % 256 := by simp [fieldKk, BitVec.extractLsb'_toNat]

/-- Big-endian: the first byte is the high one (R54). -/
theorem wordOfBytes_toNat (hi lo : Byte) : (wordOfBytes hi lo).toNat = 256 * hi.toNat + lo.toNat := by
  have h := @BitVec.toNat_append 8 8 hi lo
  refine h.trans ?_
  rw [← Nat.shiftLeft_add_eq_or_of_lt lo.isLt, Nat.shiftLeft_eq, Nat.mul_comm]

end Sys2Proof
end

