-- ==== Sys2Proof/Laws/Memory.lean ====
section
/-! SUPPORT. What the memory operations do: a read after a write (spec/20_memory.md R52), a run of bytes (R54), and the canonical form. -/

namespace Sys2Proof.Machine

@[simp] theorem Memory.read_nil (a : Nat) : Memory.read [] a = Memory.unlisted a := rfl

theorem Memory.read_cons (k : Nat) (b : Byte) (m : Memory) (a : Nat) :
    Memory.read ((k, b) :: m) a = if k = a then b else Memory.read m a := rfl

theorem Memory.read_erase (m : Memory) (a c : Nat) :
    Memory.read (Memory.erase a m) c = if c = a then Memory.unlisted a else Memory.read m c := by
  induction m with
  | nil => by_cases h : c = a <;> simp [Memory.erase, h]
  | cons cell m ih =>
    obtain ⟨k, b⟩ := cell
    unfold Memory.erase at ih ⊢
    by_cases hk : k = a
    · simp [hk, Memory.read_cons]
      grind
    · simp [hk, Memory.read_cons]
      grind

theorem Memory.read_insert (m : Memory) (a c : Nat) (b : Byte) (h : ∀ cell ∈ m, cell.1 ≠ a) :
    Memory.read (Memory.insert a b m) c = if c = a then b else Memory.read m c := by
  induction m with
  | nil => simp [Memory.insert, Memory.read_cons, eq_comm]
  | cons cell m ih =>
    obtain ⟨k, d⟩ := cell
    simp only [Memory.insert]
    split
    · simp [Memory.read_cons, eq_comm]
    · have hk : k ≠ a := h (k, d) (by simp)
      simp only [Memory.read_cons, ih fun x hx => h x (by simp [hx])]
      grind

theorem Memory.erase_absent (m : Memory) (a : Nat) : ∀ cell ∈ Memory.erase a m, cell.1 ≠ a := by
  simp [Memory.erase]

/-- `MemWrite` changes that byte and no other (R52). -/
theorem Memory.read_write (m : Memory) (a c : Nat) (b : Byte) :
    Memory.read (Memory.write m a b) c = if c = a then b else Memory.read m c := by
  unfold Memory.write
  split
  · next h => simp [Memory.read_erase, h]
  · rw [Memory.read_insert _ _ _ _ (Memory.erase_absent m a), Memory.read_erase]
    grind

/-- A run of bytes lands at ascending addresses and nowhere else (R54). -/
theorem Memory.read_writeBytes (l : List Byte) (m : Memory) (a c : Nat) :
    Memory.read (Memory.writeBytes m a l) c
      = if h : a ≤ c ∧ c < a + l.length then l[c - a]'(by omega) else Memory.read m c := by
  induction l generalizing m a with
  | nil => simp [Memory.writeBytes]
  | cons b l ih =>
    simp only [Memory.writeBytes, ih, Memory.read_write, List.length_cons]
    by_cases h1 : c = a
    · subst h1; simp
    · by_cases h2 : a + 1 ≤ c ∧ c < a + 1 + l.length
      · have h3 : a ≤ c ∧ c < a + (l.length + 1) := by omega
        have e : c - a = c - (a + 1) + 1 := by omega
        simp [h2, h3, e]
      · have h3 : ¬ (a ≤ c ∧ c < a + (l.length + 1)) := by omega
        rw [dif_neg h2, dif_neg h3, if_neg h1]

theorem Memory.wfFrom_cons (lo k : Nat) (b : Byte) (m : Memory) :
    Memory.wfFrom lo ((k, b) :: m) = true
      ↔ lo ≤ k ∧ k < memorySize ∧ b ≠ Memory.unlisted k ∧ Memory.wfFrom (k + 1) m = true := by
  simp [Memory.wfFrom, and_assoc]

theorem Memory.wfFrom_mono {lo lo' : Nat} (h : lo' ≤ lo) (m : Memory) (hm : Memory.wfFrom lo m = true) :
    Memory.wfFrom lo' m = true := by
  cases m with
  | nil => rfl
  | cons cell m =>
    obtain ⟨k, b⟩ := cell
    rw [Memory.wfFrom_cons] at hm ⊢
    exact ⟨h.trans hm.1, hm.2⟩

theorem Memory.wfFrom_erase (m : Memory) (lo a : Nat) (hm : Memory.wfFrom lo m = true) :
    Memory.wfFrom lo (Memory.erase a m) = true := by
  induction m generalizing lo with
  | nil => rfl
  | cons cell m ih =>
    obtain ⟨k, b⟩ := cell
    rw [Memory.wfFrom_cons] at hm
    unfold Memory.erase at ih ⊢
    by_cases hk : k = a
    · simpa [hk] using Memory.wfFrom_mono (Nat.le_succ_of_le hm.1) _ (ih _ hm.2.2.2)
    · rw [List.filter_cons_of_pos (by simpa using hk), Memory.wfFrom_cons]
      exact ⟨hm.1, hm.2.1, hm.2.2.1, ih _ hm.2.2.2⟩

theorem Memory.wfFrom_insert (m : Memory) (lo a : Nat) (b : Byte) (hm : Memory.wfFrom lo m = true) (hlo : lo ≤ a)
    (ha : a < memorySize) (hb : b ≠ Memory.unlisted a) (habs : ∀ cell ∈ m, cell.1 ≠ a) :
    Memory.wfFrom lo (Memory.insert a b m) = true := by
  induction m generalizing lo with
  | nil => rw [Memory.insert, Memory.wfFrom_cons]; exact ⟨hlo, ha, hb, rfl⟩
  | cons cell m ih =>
    obtain ⟨k, c⟩ := cell
    rw [Memory.wfFrom_cons] at hm
    have hk : k ≠ a := habs (k, c) (by simp)
    simp only [Memory.insert]
    split
    · rw [Memory.wfFrom_cons, Memory.wfFrom_cons]
      exact ⟨hlo, ha, hb, by omega, hm.2⟩
    · rw [Memory.wfFrom_cons]
      exact ⟨hm.1, hm.2.1, hm.2.2.1, ih (k + 1) hm.2.2.2 (by omega) fun x hx => habs x (by simp [hx])⟩

/-- A write inside memory keeps the canonical form. -/
theorem Memory.wf_write (m : Memory) (a : Nat) (b : Byte) (hm : m.wf = true) (ha : a < memorySize) :
    (Memory.write m a b).wf = true := by
  unfold Memory.write
  split
  · exact Memory.wfFrom_erase m 0 a hm
  · next h => exact Memory.wfFrom_insert _ 0 a b (Memory.wfFrom_erase m 0 a hm) (Nat.zero_le a) ha h (Memory.erase_absent m a)

/-- A run of bytes inside memory keeps the canonical form. -/
theorem Memory.wf_writeBytes (l : List Byte) (m : Memory) (a : Nat) (hm : m.wf = true) (ha : a + l.length ≤ memorySize) :
    (Memory.writeBytes m a l).wf = true := by
  induction l generalizing m a with
  | nil => exact hm
  | cons b l ih =>
    rw [List.length_cons] at ha
    exact ih _ _ (Memory.wf_write m a b hm (by omega)) (by omega)

/-- The reset event's memory is canonical for every font and every image that fits (R40, R231). -/
theorem Memory.wf_resetMemory (f : Font) (prog : List Byte) (h : prog.length ≤ 3584) : (resetMemory f prog).wf = true :=
  Memory.wf_writeBytes _ _ _ (Memory.wf_writeBytes _ _ _ rfl (by simp [memorySize])) (by simp only [programBase, memorySize]; omega)

theorem State.reset_mem_wf : State.reset.mem.wf = true := rfl

end Sys2Proof.Machine
end

