-- ==== Sys2Proof/Laws/State.lean ====
section
/-! SUPPORT. One lemma per field per state update, each true by unfolding that update alone, so that no proof unfolds a record update. -/

namespace Sys2Proof.Machine

variable (s : State)

@[simp] theorem State.setReg_v (x : Reg) (b : Byte) : (s.setReg x b).v = s.v.set x.toNat b x.isLt := rfl
@[simp] theorem State.setReg_i (x : Reg) (b : Byte) : (s.setReg x b).i = s.i := rfl
@[simp] theorem State.setReg_pc (x : Reg) (b : Byte) : (s.setReg x b).pc = s.pc := rfl
@[simp] theorem State.setReg_stack (x : Reg) (b : Byte) : (s.setReg x b).stack = s.stack := rfl
@[simp] theorem State.setReg_sp (x : Reg) (b : Byte) : (s.setReg x b).sp = s.sp := rfl
@[simp] theorem State.setReg_dt (x : Reg) (b : Byte) : (s.setReg x b).dt = s.dt := rfl
@[simp] theorem State.setReg_st (x : Reg) (b : Byte) : (s.setReg x b).st = s.st := rfl
@[simp] theorem State.setReg_fb (x : Reg) (b : Byte) : (s.setReg x b).fb = s.fb := rfl
@[simp] theorem State.setReg_mem (x : Reg) (b : Byte) : (s.setReg x b).mem = s.mem := rfl
@[simp] theorem State.setReg_key (x : Reg) (b : Byte) : (s.setReg x b).key = s.key := rfl
@[simp] theorem State.setReg_fault (x : Reg) (b : Byte) : (s.setReg x b).fault = s.fault := rfl
@[simp] theorem State.setReg_config (x : Reg) (b : Byte) : (s.setReg x b).config = s.config := rfl
@[simp] theorem State.setReg_inputs (x : Reg) (b : Byte) : (s.setReg x b).inputs = s.inputs := rfl
@[simp] theorem State.setReg_clock (x : Reg) (b : Byte) : (s.setReg x b).clock = s.clock := rfl

@[simp] theorem State.setFlag_i (f : Bool) : (s.setFlag f).i = s.i := rfl
@[simp] theorem State.setFlag_pc (f : Bool) : (s.setFlag f).pc = s.pc := rfl
@[simp] theorem State.setFlag_stack (f : Bool) : (s.setFlag f).stack = s.stack := rfl
@[simp] theorem State.setFlag_sp (f : Bool) : (s.setFlag f).sp = s.sp := rfl
@[simp] theorem State.setFlag_dt (f : Bool) : (s.setFlag f).dt = s.dt := rfl
@[simp] theorem State.setFlag_st (f : Bool) : (s.setFlag f).st = s.st := rfl
@[simp] theorem State.setFlag_fb (f : Bool) : (s.setFlag f).fb = s.fb := rfl
@[simp] theorem State.setFlag_mem (f : Bool) : (s.setFlag f).mem = s.mem := rfl
@[simp] theorem State.setFlag_key (f : Bool) : (s.setFlag f).key = s.key := rfl
@[simp] theorem State.setFlag_fault (f : Bool) : (s.setFlag f).fault = s.fault := rfl
@[simp] theorem State.setFlag_config (f : Bool) : (s.setFlag f).config = s.config := rfl
@[simp] theorem State.setFlag_inputs (f : Bool) : (s.setFlag f).inputs = s.inputs := rfl
@[simp] theorem State.setFlag_clock (f : Bool) : (s.setFlag f).clock = s.clock := rfl

@[simp] theorem State.setResult_i (x : Reg) (b : Byte) (f : Bool) : (s.setResult x b f).i = s.i := rfl
@[simp] theorem State.setResult_pc (x : Reg) (b : Byte) (f : Bool) : (s.setResult x b f).pc = s.pc := rfl
@[simp] theorem State.setResult_stack (x : Reg) (b : Byte) (f : Bool) : (s.setResult x b f).stack = s.stack := rfl
@[simp] theorem State.setResult_sp (x : Reg) (b : Byte) (f : Bool) : (s.setResult x b f).sp = s.sp := rfl
@[simp] theorem State.setResult_dt (x : Reg) (b : Byte) (f : Bool) : (s.setResult x b f).dt = s.dt := rfl
@[simp] theorem State.setResult_st (x : Reg) (b : Byte) (f : Bool) : (s.setResult x b f).st = s.st := rfl
@[simp] theorem State.setResult_fb (x : Reg) (b : Byte) (f : Bool) : (s.setResult x b f).fb = s.fb := rfl
@[simp] theorem State.setResult_mem (x : Reg) (b : Byte) (f : Bool) : (s.setResult x b f).mem = s.mem := rfl
@[simp] theorem State.setResult_key (x : Reg) (b : Byte) (f : Bool) : (s.setResult x b f).key = s.key := rfl
@[simp] theorem State.setResult_fault (x : Reg) (b : Byte) (f : Bool) : (s.setResult x b f).fault = s.fault := rfl
@[simp] theorem State.setResult_config (x : Reg) (b : Byte) (f : Bool) : (s.setResult x b f).config = s.config := rfl
@[simp] theorem State.setResult_inputs (x : Reg) (b : Byte) (f : Bool) : (s.setResult x b f).inputs = s.inputs := rfl
@[simp] theorem State.setResult_clock (x : Reg) (b : Byte) (f : Bool) : (s.setResult x b f).clock = s.clock := rfl

@[simp] theorem State.setI_v (w : Word) : (s.setI w).v = s.v := rfl
@[simp] theorem State.setI_i (w : Word) : (s.setI w).i = w := rfl
@[simp] theorem State.setI_pc (w : Word) : (s.setI w).pc = s.pc := rfl
@[simp] theorem State.setI_stack (w : Word) : (s.setI w).stack = s.stack := rfl
@[simp] theorem State.setI_sp (w : Word) : (s.setI w).sp = s.sp := rfl
@[simp] theorem State.setI_dt (w : Word) : (s.setI w).dt = s.dt := rfl
@[simp] theorem State.setI_st (w : Word) : (s.setI w).st = s.st := rfl
@[simp] theorem State.setI_fb (w : Word) : (s.setI w).fb = s.fb := rfl
@[simp] theorem State.setI_mem (w : Word) : (s.setI w).mem = s.mem := rfl
@[simp] theorem State.setI_key (w : Word) : (s.setI w).key = s.key := rfl
@[simp] theorem State.setI_fault (w : Word) : (s.setI w).fault = s.fault := rfl
@[simp] theorem State.setI_config (w : Word) : (s.setI w).config = s.config := rfl
@[simp] theorem State.setI_inputs (w : Word) : (s.setI w).inputs = s.inputs := rfl
@[simp] theorem State.setI_clock (w : Word) : (s.setI w).clock = s.clock := rfl

@[simp] theorem State.setPc_v (w : Word) : (s.setPc w).v = s.v := rfl
@[simp] theorem State.setPc_i (w : Word) : (s.setPc w).i = s.i := rfl
@[simp] theorem State.setPc_pc (w : Word) : (s.setPc w).pc = w := rfl
@[simp] theorem State.setPc_stack (w : Word) : (s.setPc w).stack = s.stack := rfl
@[simp] theorem State.setPc_sp (w : Word) : (s.setPc w).sp = s.sp := rfl
@[simp] theorem State.setPc_dt (w : Word) : (s.setPc w).dt = s.dt := rfl
@[simp] theorem State.setPc_st (w : Word) : (s.setPc w).st = s.st := rfl
@[simp] theorem State.setPc_fb (w : Word) : (s.setPc w).fb = s.fb := rfl
@[simp] theorem State.setPc_mem (w : Word) : (s.setPc w).mem = s.mem := rfl
@[simp] theorem State.setPc_key (w : Word) : (s.setPc w).key = s.key := rfl
@[simp] theorem State.setPc_fault (w : Word) : (s.setPc w).fault = s.fault := rfl
@[simp] theorem State.setPc_config (w : Word) : (s.setPc w).config = s.config := rfl
@[simp] theorem State.setPc_inputs (w : Word) : (s.setPc w).inputs = s.inputs := rfl
@[simp] theorem State.setPc_clock (w : Word) : (s.setPc w).clock = s.clock := rfl

@[simp] theorem State.advance_v : s.advance.v = s.v := rfl
@[simp] theorem State.advance_i : s.advance.i = s.i := rfl
@[simp] theorem State.advance_pc : s.advance.pc = s.pc + 2#16 := rfl
@[simp] theorem State.advance_stack : s.advance.stack = s.stack := rfl
@[simp] theorem State.advance_sp : s.advance.sp = s.sp := rfl
@[simp] theorem State.advance_dt : s.advance.dt = s.dt := rfl
@[simp] theorem State.advance_st : s.advance.st = s.st := rfl
@[simp] theorem State.advance_fb : s.advance.fb = s.fb := rfl
@[simp] theorem State.advance_mem : s.advance.mem = s.mem := rfl
@[simp] theorem State.advance_key : s.advance.key = s.key := rfl
@[simp] theorem State.advance_fault : s.advance.fault = s.fault := rfl
@[simp] theorem State.advance_config : s.advance.config = s.config := rfl
@[simp] theorem State.advance_inputs : s.advance.inputs = s.inputs := rfl
@[simp] theorem State.advance_clock : s.advance.clock = s.clock := rfl

@[simp] theorem State.setDt_v (b : Byte) : (s.setDt b).v = s.v := rfl
@[simp] theorem State.setDt_i (b : Byte) : (s.setDt b).i = s.i := rfl
@[simp] theorem State.setDt_pc (b : Byte) : (s.setDt b).pc = s.pc := rfl
@[simp] theorem State.setDt_stack (b : Byte) : (s.setDt b).stack = s.stack := rfl
@[simp] theorem State.setDt_sp (b : Byte) : (s.setDt b).sp = s.sp := rfl
@[simp] theorem State.setDt_dt (b : Byte) : (s.setDt b).dt = b := rfl
@[simp] theorem State.setDt_st (b : Byte) : (s.setDt b).st = s.st := rfl
@[simp] theorem State.setDt_fb (b : Byte) : (s.setDt b).fb = s.fb := rfl
@[simp] theorem State.setDt_mem (b : Byte) : (s.setDt b).mem = s.mem := rfl
@[simp] theorem State.setDt_key (b : Byte) : (s.setDt b).key = s.key := rfl
@[simp] theorem State.setDt_fault (b : Byte) : (s.setDt b).fault = s.fault := rfl
@[simp] theorem State.setDt_config (b : Byte) : (s.setDt b).config = s.config := rfl
@[simp] theorem State.setDt_inputs (b : Byte) : (s.setDt b).inputs = s.inputs := rfl
@[simp] theorem State.setDt_clock (b : Byte) : (s.setDt b).clock = s.clock := rfl

@[simp] theorem State.setSt_v (b : Byte) : (s.setSt b).v = s.v := rfl
@[simp] theorem State.setSt_i (b : Byte) : (s.setSt b).i = s.i := rfl
@[simp] theorem State.setSt_pc (b : Byte) : (s.setSt b).pc = s.pc := rfl
@[simp] theorem State.setSt_stack (b : Byte) : (s.setSt b).stack = s.stack := rfl
@[simp] theorem State.setSt_sp (b : Byte) : (s.setSt b).sp = s.sp := rfl
@[simp] theorem State.setSt_dt (b : Byte) : (s.setSt b).dt = s.dt := rfl
@[simp] theorem State.setSt_st (b : Byte) : (s.setSt b).st = b := rfl
@[simp] theorem State.setSt_fb (b : Byte) : (s.setSt b).fb = s.fb := rfl
@[simp] theorem State.setSt_mem (b : Byte) : (s.setSt b).mem = s.mem := rfl
@[simp] theorem State.setSt_key (b : Byte) : (s.setSt b).key = s.key := rfl
@[simp] theorem State.setSt_fault (b : Byte) : (s.setSt b).fault = s.fault := rfl
@[simp] theorem State.setSt_config (b : Byte) : (s.setSt b).config = s.config := rfl
@[simp] theorem State.setSt_inputs (b : Byte) : (s.setSt b).inputs = s.inputs := rfl
@[simp] theorem State.setSt_clock (b : Byte) : (s.setSt b).clock = s.clock := rfl

@[simp] theorem State.setKey_v (k : Option Key) : (s.setKey k).v = s.v := rfl
@[simp] theorem State.setKey_i (k : Option Key) : (s.setKey k).i = s.i := rfl
@[simp] theorem State.setKey_pc (k : Option Key) : (s.setKey k).pc = s.pc := rfl
@[simp] theorem State.setKey_stack (k : Option Key) : (s.setKey k).stack = s.stack := rfl
@[simp] theorem State.setKey_sp (k : Option Key) : (s.setKey k).sp = s.sp := rfl
@[simp] theorem State.setKey_dt (k : Option Key) : (s.setKey k).dt = s.dt := rfl
@[simp] theorem State.setKey_st (k : Option Key) : (s.setKey k).st = s.st := rfl
@[simp] theorem State.setKey_fb (k : Option Key) : (s.setKey k).fb = s.fb := rfl
@[simp] theorem State.setKey_mem (k : Option Key) : (s.setKey k).mem = s.mem := rfl
@[simp] theorem State.setKey_key (k : Option Key) : (s.setKey k).key = k := rfl
@[simp] theorem State.setKey_fault (k : Option Key) : (s.setKey k).fault = s.fault := rfl
@[simp] theorem State.setKey_config (k : Option Key) : (s.setKey k).config = s.config := rfl
@[simp] theorem State.setKey_inputs (k : Option Key) : (s.setKey k).inputs = s.inputs := rfl
@[simp] theorem State.setKey_clock (k : Option Key) : (s.setKey k).clock = s.clock := rfl

@[simp] theorem State.setFb_v (p : FrameBuffer) : (s.setFb p).v = s.v := rfl
@[simp] theorem State.setFb_i (p : FrameBuffer) : (s.setFb p).i = s.i := rfl
@[simp] theorem State.setFb_pc (p : FrameBuffer) : (s.setFb p).pc = s.pc := rfl
@[simp] theorem State.setFb_stack (p : FrameBuffer) : (s.setFb p).stack = s.stack := rfl
@[simp] theorem State.setFb_sp (p : FrameBuffer) : (s.setFb p).sp = s.sp := rfl
@[simp] theorem State.setFb_dt (p : FrameBuffer) : (s.setFb p).dt = s.dt := rfl
@[simp] theorem State.setFb_st (p : FrameBuffer) : (s.setFb p).st = s.st := rfl
@[simp] theorem State.setFb_fb (p : FrameBuffer) : (s.setFb p).fb = p := rfl
@[simp] theorem State.setFb_mem (p : FrameBuffer) : (s.setFb p).mem = s.mem := rfl
@[simp] theorem State.setFb_key (p : FrameBuffer) : (s.setFb p).key = s.key := rfl
@[simp] theorem State.setFb_fault (p : FrameBuffer) : (s.setFb p).fault = s.fault := rfl
@[simp] theorem State.setFb_config (p : FrameBuffer) : (s.setFb p).config = s.config := rfl
@[simp] theorem State.setFb_inputs (p : FrameBuffer) : (s.setFb p).inputs = s.inputs := rfl
@[simp] theorem State.setFb_clock (p : FrameBuffer) : (s.setFb p).clock = s.clock := rfl

@[simp] theorem State.writeBytes_v (a : Nat) (l : List Byte) : (s.writeBytes a l).v = s.v := rfl
@[simp] theorem State.writeBytes_i (a : Nat) (l : List Byte) : (s.writeBytes a l).i = s.i := rfl
@[simp] theorem State.writeBytes_pc (a : Nat) (l : List Byte) : (s.writeBytes a l).pc = s.pc := rfl
@[simp] theorem State.writeBytes_stack (a : Nat) (l : List Byte) : (s.writeBytes a l).stack = s.stack := rfl
@[simp] theorem State.writeBytes_sp (a : Nat) (l : List Byte) : (s.writeBytes a l).sp = s.sp := rfl
@[simp] theorem State.writeBytes_dt (a : Nat) (l : List Byte) : (s.writeBytes a l).dt = s.dt := rfl
@[simp] theorem State.writeBytes_st (a : Nat) (l : List Byte) : (s.writeBytes a l).st = s.st := rfl
@[simp] theorem State.writeBytes_fb (a : Nat) (l : List Byte) : (s.writeBytes a l).fb = s.fb := rfl
@[simp] theorem State.writeBytes_mem (a : Nat) (l : List Byte) : (s.writeBytes a l).mem = Memory.writeBytes s.mem a l := rfl
@[simp] theorem State.writeBytes_key (a : Nat) (l : List Byte) : (s.writeBytes a l).key = s.key := rfl
@[simp] theorem State.writeBytes_fault (a : Nat) (l : List Byte) : (s.writeBytes a l).fault = s.fault := rfl
@[simp] theorem State.writeBytes_config (a : Nat) (l : List Byte) : (s.writeBytes a l).config = s.config := rfl
@[simp] theorem State.writeBytes_inputs (a : Nat) (l : List Byte) : (s.writeBytes a l).inputs = s.inputs := rfl
@[simp] theorem State.writeBytes_clock (a : Nat) (l : List Byte) : (s.writeBytes a l).clock = s.clock := rfl

@[simp] theorem State.push_v (w : Word) (h : s.sp.val < 16) : (s.push w h).v = s.v := rfl
@[simp] theorem State.push_i (w : Word) (h : s.sp.val < 16) : (s.push w h).i = s.i := rfl
@[simp] theorem State.push_pc (w : Word) (h : s.sp.val < 16) : (s.push w h).pc = s.pc := rfl
@[simp] theorem State.push_stack (w : Word) (h : s.sp.val < 16) : (s.push w h).stack = s.stack.set s.sp.val w h := rfl
@[simp] theorem State.push_sp (w : Word) (h : s.sp.val < 16) : (s.push w h).sp = ⟨s.sp.val + 1, by omega⟩ := rfl
@[simp] theorem State.push_dt (w : Word) (h : s.sp.val < 16) : (s.push w h).dt = s.dt := rfl
@[simp] theorem State.push_st (w : Word) (h : s.sp.val < 16) : (s.push w h).st = s.st := rfl
@[simp] theorem State.push_fb (w : Word) (h : s.sp.val < 16) : (s.push w h).fb = s.fb := rfl
@[simp] theorem State.push_mem (w : Word) (h : s.sp.val < 16) : (s.push w h).mem = s.mem := rfl
@[simp] theorem State.push_key (w : Word) (h : s.sp.val < 16) : (s.push w h).key = s.key := rfl
@[simp] theorem State.push_fault (w : Word) (h : s.sp.val < 16) : (s.push w h).fault = s.fault := rfl
@[simp] theorem State.push_config (w : Word) (h : s.sp.val < 16) : (s.push w h).config = s.config := rfl
@[simp] theorem State.push_inputs (w : Word) (h : s.sp.val < 16) : (s.push w h).inputs = s.inputs := rfl
@[simp] theorem State.push_clock (w : Word) (h : s.sp.val < 16) : (s.push w h).clock = s.clock := rfl

@[simp] theorem State.pop_v (h : 0 < s.sp.val) : (s.pop h).2.v = s.v := rfl
@[simp] theorem State.pop_i (h : 0 < s.sp.val) : (s.pop h).2.i = s.i := rfl
@[simp] theorem State.pop_pc (h : 0 < s.sp.val) : (s.pop h).2.pc = s.pc := rfl
@[simp] theorem State.pop_stack (h : 0 < s.sp.val) : (s.pop h).2.stack = s.stack := rfl
@[simp] theorem State.pop_sp (h : 0 < s.sp.val) : (s.pop h).2.sp = ⟨s.sp.val - 1, by omega⟩ := rfl
@[simp] theorem State.pop_dt (h : 0 < s.sp.val) : (s.pop h).2.dt = s.dt := rfl
@[simp] theorem State.pop_st (h : 0 < s.sp.val) : (s.pop h).2.st = s.st := rfl
@[simp] theorem State.pop_fb (h : 0 < s.sp.val) : (s.pop h).2.fb = s.fb := rfl
@[simp] theorem State.pop_mem (h : 0 < s.sp.val) : (s.pop h).2.mem = s.mem := rfl
@[simp] theorem State.pop_key (h : 0 < s.sp.val) : (s.pop h).2.key = s.key := rfl
@[simp] theorem State.pop_fault (h : 0 < s.sp.val) : (s.pop h).2.fault = s.fault := rfl
@[simp] theorem State.pop_config (h : 0 < s.sp.val) : (s.pop h).2.config = s.config := rfl
@[simp] theorem State.pop_inputs (h : 0 < s.sp.val) : (s.pop h).2.inputs = s.inputs := rfl
@[simp] theorem State.pop_clock (h : 0 < s.sp.val) : (s.pop h).2.clock = s.clock := rfl

@[simp] theorem State.tick_v : s.tick.v = s.v := rfl
@[simp] theorem State.tick_i : s.tick.i = s.i := rfl
@[simp] theorem State.tick_pc : s.tick.pc = s.pc := rfl
@[simp] theorem State.tick_stack : s.tick.stack = s.stack := rfl
@[simp] theorem State.tick_sp : s.tick.sp = s.sp := rfl
@[simp] theorem State.tick_dt : s.tick.dt = if s.dt = 0x00#8 then s.dt else s.dt - 0x01#8 := rfl
@[simp] theorem State.tick_st : s.tick.st = if s.st = 0x00#8 then s.st else s.st - 0x01#8 := rfl
@[simp] theorem State.tick_fb : s.tick.fb = s.fb := rfl
@[simp] theorem State.tick_mem : s.tick.mem = s.mem := rfl
@[simp] theorem State.tick_key : s.tick.key = s.key := rfl
@[simp] theorem State.tick_fault : s.tick.fault = s.fault := rfl
@[simp] theorem State.tick_config : s.tick.config = s.config := rfl
@[simp] theorem State.tick_inputs : s.tick.inputs = s.inputs := rfl
@[simp] theorem State.tick_clock : s.tick.clock = s.clock := rfl

@[simp] theorem State.ticks_v (n : Nat) : (s.ticks n).v = s.v := rfl
@[simp] theorem State.ticks_i (n : Nat) : (s.ticks n).i = s.i := rfl
@[simp] theorem State.ticks_pc (n : Nat) : (s.ticks n).pc = s.pc := rfl
@[simp] theorem State.ticks_stack (n : Nat) : (s.ticks n).stack = s.stack := rfl
@[simp] theorem State.ticks_sp (n : Nat) : (s.ticks n).sp = s.sp := rfl
@[simp] theorem State.ticks_dt (n : Nat) : (s.ticks n).dt = countDown n s.dt := rfl
@[simp] theorem State.ticks_st (n : Nat) : (s.ticks n).st = countDown n s.st := rfl
@[simp] theorem State.ticks_fb (n : Nat) : (s.ticks n).fb = s.fb := rfl
@[simp] theorem State.ticks_mem (n : Nat) : (s.ticks n).mem = s.mem := rfl
@[simp] theorem State.ticks_key (n : Nat) : (s.ticks n).key = s.key := rfl
@[simp] theorem State.ticks_fault (n : Nat) : (s.ticks n).fault = s.fault := rfl
@[simp] theorem State.ticks_config (n : Nat) : (s.ticks n).config = s.config := rfl
@[simp] theorem State.ticks_inputs (n : Nat) : (s.ticks n).inputs = s.inputs := rfl
@[simp] theorem State.ticks_clock (n : Nat) : (s.ticks n).clock = s.clock := rfl

@[simp] theorem State.nextInput_v : s.nextInput.v = s.v := rfl
@[simp] theorem State.nextInput_i : s.nextInput.i = s.i := rfl
@[simp] theorem State.nextInput_pc : s.nextInput.pc = s.pc := rfl
@[simp] theorem State.nextInput_stack : s.nextInput.stack = s.stack := rfl
@[simp] theorem State.nextInput_sp : s.nextInput.sp = s.sp := rfl
@[simp] theorem State.nextInput_dt : s.nextInput.dt = s.dt := rfl
@[simp] theorem State.nextInput_st : s.nextInput.st = s.st := rfl
@[simp] theorem State.nextInput_fb : s.nextInput.fb = s.fb := rfl
@[simp] theorem State.nextInput_mem : s.nextInput.mem = s.mem := rfl
@[simp] theorem State.nextInput_key : s.nextInput.key = s.key := rfl
@[simp] theorem State.nextInput_fault : s.nextInput.fault = s.fault := rfl
@[simp] theorem State.nextInput_config : s.nextInput.config = s.config := rfl
@[simp] theorem State.nextInput_inputs : s.nextInput.inputs = s.inputs.tail := rfl
@[simp] theorem State.nextInput_clock : s.nextInput.clock = s.clock + 1 := rfl

@[simp] theorem State.raise_v (k : FaultKind) (w : Word) : (s.raise k w).v = s.v := rfl
@[simp] theorem State.raise_i (k : FaultKind) (w : Word) : (s.raise k w).i = s.i := rfl
@[simp] theorem State.raise_pc (k : FaultKind) (w : Word) : (s.raise k w).pc = s.pc := rfl
@[simp] theorem State.raise_stack (k : FaultKind) (w : Word) : (s.raise k w).stack = s.stack := rfl
@[simp] theorem State.raise_sp (k : FaultKind) (w : Word) : (s.raise k w).sp = s.sp := rfl
@[simp] theorem State.raise_dt (k : FaultKind) (w : Word) : (s.raise k w).dt = s.dt := rfl
@[simp] theorem State.raise_st (k : FaultKind) (w : Word) : (s.raise k w).st = s.st := rfl
@[simp] theorem State.raise_fb (k : FaultKind) (w : Word) : (s.raise k w).fb = s.fb := rfl
@[simp] theorem State.raise_mem (k : FaultKind) (w : Word) : (s.raise k w).mem = s.mem := rfl
@[simp] theorem State.raise_key (k : FaultKind) (w : Word) : (s.raise k w).key = s.key := rfl
@[simp] theorem State.raise_fault (k : FaultKind) (w : Word) : (s.raise k w).fault = some { kind := k, info := w } := rfl
@[simp] theorem State.raise_config (k : FaultKind) (w : Word) : (s.raise k w).config = s.config := rfl
@[simp] theorem State.raise_inputs (k : FaultKind) (w : Word) : (s.raise k w).inputs = s.inputs := rfl
@[simp] theorem State.raise_clock (k : FaultKind) (w : Word) : (s.raise k w).clock = s.clock := rfl

@[simp] theorem State.keySkip_v : s.keySkip.v = s.v := rfl
@[simp] theorem State.keySkip_i : s.keySkip.i = s.i := rfl
@[simp] theorem State.keySkip_pc : s.keySkip.pc = s.pc + 2#16 := rfl
@[simp] theorem State.keySkip_stack : s.keySkip.stack = s.stack := rfl
@[simp] theorem State.keySkip_sp : s.keySkip.sp = s.sp := rfl
@[simp] theorem State.keySkip_dt : s.keySkip.dt = s.dt := rfl
@[simp] theorem State.keySkip_st : s.keySkip.st = s.st := rfl
@[simp] theorem State.keySkip_fb : s.keySkip.fb = s.fb := rfl
@[simp] theorem State.keySkip_mem : s.keySkip.mem = s.mem := rfl
@[simp] theorem State.keySkip_key : s.keySkip.key = none := rfl
@[simp] theorem State.keySkip_fault : s.keySkip.fault = s.fault := rfl
@[simp] theorem State.keySkip_config : s.keySkip.config = s.config := rfl
@[simp] theorem State.keySkip_inputs : s.keySkip.inputs = s.inputs := rfl
@[simp] theorem State.keySkip_clock : s.keySkip.clock = s.clock := rfl

/-! The accessors read the fields of their own: every other update leaves them. -/

@[simp] theorem State.setReg_readByte (x : Reg) (b : Byte) (c : Nat) : (s.setReg x b).readByte c = s.readByte c := rfl
@[simp] theorem State.setReg_input (x : Reg) (b : Byte) : (s.setReg x b).input = s.input := rfl
@[simp] theorem State.setReg_fetchWord (x : Reg) (b : Byte) : (s.setReg x b).fetchWord = s.fetchWord := rfl

@[simp] theorem State.setFlag_readByte (f : Bool) (c : Nat) : (s.setFlag f).readByte c = s.readByte c := rfl
@[simp] theorem State.setFlag_input (f : Bool) : (s.setFlag f).input = s.input := rfl
@[simp] theorem State.setFlag_fetchWord (f : Bool) : (s.setFlag f).fetchWord = s.fetchWord := rfl

@[simp] theorem State.setResult_readByte (x : Reg) (b : Byte) (f : Bool) (c : Nat) : (s.setResult x b f).readByte c = s.readByte c := rfl
@[simp] theorem State.setResult_input (x : Reg) (b : Byte) (f : Bool) : (s.setResult x b f).input = s.input := rfl
@[simp] theorem State.setResult_fetchWord (x : Reg) (b : Byte) (f : Bool) : (s.setResult x b f).fetchWord = s.fetchWord := rfl

@[simp] theorem State.setI_reg (w : Word) (j : Reg) : (s.setI w).reg j = s.reg j := rfl
@[simp] theorem State.setI_readByte (w : Word) (c : Nat) : (s.setI w).readByte c = s.readByte c := rfl
@[simp] theorem State.setI_input (w : Word) : (s.setI w).input = s.input := rfl
@[simp] theorem State.setI_fetchWord (w : Word) : (s.setI w).fetchWord = s.fetchWord := rfl

@[simp] theorem State.setPc_reg (w : Word) (j : Reg) : (s.setPc w).reg j = s.reg j := rfl
@[simp] theorem State.setPc_readByte (w : Word) (c : Nat) : (s.setPc w).readByte c = s.readByte c := rfl
@[simp] theorem State.setPc_input (w : Word) : (s.setPc w).input = s.input := rfl

@[simp] theorem State.advance_reg (j : Reg) : s.advance.reg j = s.reg j := rfl
@[simp] theorem State.advance_readByte (c : Nat) : s.advance.readByte c = s.readByte c := rfl
@[simp] theorem State.advance_input : s.advance.input = s.input := rfl

@[simp] theorem State.setDt_reg (b : Byte) (j : Reg) : (s.setDt b).reg j = s.reg j := rfl
@[simp] theorem State.setDt_readByte (b : Byte) (c : Nat) : (s.setDt b).readByte c = s.readByte c := rfl
@[simp] theorem State.setDt_input (b : Byte) : (s.setDt b).input = s.input := rfl
@[simp] theorem State.setDt_fetchWord (b : Byte) : (s.setDt b).fetchWord = s.fetchWord := rfl

@[simp] theorem State.setSt_reg (b : Byte) (j : Reg) : (s.setSt b).reg j = s.reg j := rfl
@[simp] theorem State.setSt_readByte (b : Byte) (c : Nat) : (s.setSt b).readByte c = s.readByte c := rfl
@[simp] theorem State.setSt_input (b : Byte) : (s.setSt b).input = s.input := rfl
@[simp] theorem State.setSt_fetchWord (b : Byte) : (s.setSt b).fetchWord = s.fetchWord := rfl

@[simp] theorem State.setKey_reg (k : Option Key) (j : Reg) : (s.setKey k).reg j = s.reg j := rfl
@[simp] theorem State.setKey_readByte (k : Option Key) (c : Nat) : (s.setKey k).readByte c = s.readByte c := rfl
@[simp] theorem State.setKey_input (k : Option Key) : (s.setKey k).input = s.input := rfl
@[simp] theorem State.setKey_fetchWord (k : Option Key) : (s.setKey k).fetchWord = s.fetchWord := rfl

@[simp] theorem State.setFb_reg (p : FrameBuffer) (j : Reg) : (s.setFb p).reg j = s.reg j := rfl
@[simp] theorem State.setFb_readByte (p : FrameBuffer) (c : Nat) : (s.setFb p).readByte c = s.readByte c := rfl
@[simp] theorem State.setFb_input (p : FrameBuffer) : (s.setFb p).input = s.input := rfl
@[simp] theorem State.setFb_fetchWord (p : FrameBuffer) : (s.setFb p).fetchWord = s.fetchWord := rfl

@[simp] theorem State.writeBytes_reg (a : Nat) (l : List Byte) (j : Reg) : (s.writeBytes a l).reg j = s.reg j := rfl
@[simp] theorem State.writeBytes_input (a : Nat) (l : List Byte) : (s.writeBytes a l).input = s.input := rfl

@[simp] theorem State.push_reg (w : Word) (h : s.sp.val < 16) (j : Reg) : (s.push w h).reg j = s.reg j := rfl
@[simp] theorem State.push_readByte (w : Word) (h : s.sp.val < 16) (c : Nat) : (s.push w h).readByte c = s.readByte c := rfl
@[simp] theorem State.push_input (w : Word) (h : s.sp.val < 16) : (s.push w h).input = s.input := rfl
@[simp] theorem State.push_fetchWord (w : Word) (h : s.sp.val < 16) : (s.push w h).fetchWord = s.fetchWord := rfl

@[simp] theorem State.pop_reg (h : 0 < s.sp.val) (j : Reg) : (s.pop h).2.reg j = s.reg j := rfl
@[simp] theorem State.pop_readByte (h : 0 < s.sp.val) (c : Nat) : (s.pop h).2.readByte c = s.readByte c := rfl
@[simp] theorem State.pop_input (h : 0 < s.sp.val) : (s.pop h).2.input = s.input := rfl
@[simp] theorem State.pop_fetchWord (h : 0 < s.sp.val) : (s.pop h).2.fetchWord = s.fetchWord := rfl

@[simp] theorem State.tick_reg (j : Reg) : s.tick.reg j = s.reg j := rfl
@[simp] theorem State.tick_readByte (c : Nat) : s.tick.readByte c = s.readByte c := rfl
@[simp] theorem State.tick_input : s.tick.input = s.input := rfl
@[simp] theorem State.tick_fetchWord : s.tick.fetchWord = s.fetchWord := rfl

@[simp] theorem State.ticks_reg (n : Nat) (j : Reg) : (s.ticks n).reg j = s.reg j := rfl
@[simp] theorem State.ticks_readByte (n : Nat) (c : Nat) : (s.ticks n).readByte c = s.readByte c := rfl
@[simp] theorem State.ticks_input (n : Nat) : (s.ticks n).input = s.input := rfl
@[simp] theorem State.ticks_fetchWord (n : Nat) : (s.ticks n).fetchWord = s.fetchWord := rfl

@[simp] theorem State.nextInput_reg (j : Reg) : s.nextInput.reg j = s.reg j := rfl
@[simp] theorem State.nextInput_readByte (c : Nat) : s.nextInput.readByte c = s.readByte c := rfl
@[simp] theorem State.nextInput_fetchWord : s.nextInput.fetchWord = s.fetchWord := rfl

@[simp] theorem State.raise_reg (k : FaultKind) (w : Word) (j : Reg) : (s.raise k w).reg j = s.reg j := rfl
@[simp] theorem State.raise_readByte (k : FaultKind) (w : Word) (c : Nat) : (s.raise k w).readByte c = s.readByte c := rfl
@[simp] theorem State.raise_input (k : FaultKind) (w : Word) : (s.raise k w).input = s.input := rfl
@[simp] theorem State.raise_fetchWord (k : FaultKind) (w : Word) : (s.raise k w).fetchWord = s.fetchWord := rfl

@[simp] theorem State.keySkip_reg (j : Reg) : s.keySkip.reg j = s.reg j := rfl
@[simp] theorem State.keySkip_readByte (c : Nat) : s.keySkip.readByte c = s.readByte c := rfl
@[simp] theorem State.keySkip_input : s.keySkip.input = s.input := rfl

end Sys2Proof.Machine
end

