-- ==== Sys2Proof/Laws/Ops.lean ====
section
/-! SUPPORT. One lemma per shared operation, saying once everything it can do; proofs cite these instead of unfolding the operation. -/

namespace Sys2Proof.Machine

/-! Registers and the flag (spec/10_state.md R21, R22, R24). -/

theorem State.reg_setReg (s : State) (x : Reg) (b : Byte) (k : Reg) : (s.setReg x b).reg k = if k = x then b else s.reg k := by
  simp only [State.reg, State.setReg, Vector.getElem_set, BitVec.toNat_inj, eq_comm]

@[simp] theorem State.reg_setReg_self (s : State) (x : Reg) (b : Byte) : (s.setReg x b).reg x = b := by
  rw [State.reg_setReg, if_pos rfl]

theorem State.reg_setReg_ne (s : State) (x : Reg) (b : Byte) {k : Reg} (h : k ≠ x) : (s.setReg x b).reg k = s.reg k := by
  rw [State.reg_setReg, if_neg h]

theorem State.reg_setFlag (s : State) (f : Bool) (k : Reg) :
    (s.setFlag f).reg k = if k = 0xF#4 then flagByte f else s.reg k := State.reg_setReg s 0xF#4 _ k

/-- The flag is written last: with x = 15 the result is lost (R24). -/
theorem State.reg_setResult (s : State) (x : Reg) (b : Byte) (f : Bool) (k : Reg) :
    (s.setResult x b f).reg k = if k = 0xF#4 then flagByte f else if k = x then b else s.reg k := by
  rw [State.setResult, State.reg_setFlag, State.reg_setReg]

/-- A byte of memory after a run of stores (spec/20_memory.md R52, R54). -/
theorem State.readByte_writeBytes (s : State) (a : Nat) (l : List Byte) (c : Nat) :
    (s.writeBytes a l).readByte c = if h : a ≤ c ∧ c < a + l.length then l[c - a]'(by omega) else s.readByte c :=
  Memory.read_writeBytes l s.mem a c

/-! The register block (spec/45_index_memory.md R181, R182). -/

@[simp] theorem State.regBlock_length (s : State) (x : Reg) : (s.regBlock x).length = x.toNat + 1 := by
  simp [State.regBlock, blockLength]

theorem State.regBlock_getElem (s : State) (x : Reg) (k : Nat) (h : k < (s.regBlock x).length) :
    (s.regBlock x)[k] = s.reg (BitVec.ofNat 4 k) := by
  simp [State.regBlock]

/-- A block load changes V0 to V(n-1) and nothing else. -/
theorem State.loadBlock_reg (s : State) (a n : Nat) (hn : n ≤ 16) (k : Reg) :
    (s.loadBlock a n).reg k = if k.toNat < n then s.readByte (a + k.toNat) else s.reg k := by
  induction n with
  | zero => rfl
  | succ n ih =>
    rw [State.loadBlock, State.reg_setReg, ih (by omega)]
    by_cases h : k = BitVec.ofNat 4 n
    · subst h
      have : n % 16 = n := Nat.mod_eq_of_lt (by omega)
      simp [this]
    · have : k.toNat ≠ n := fun e => h (by rw [← e, BitVec.ofNat_toNat, BitVec.setWidth_eq])
      rw [if_neg h]
      grind

theorem State.loadBlock_eq (s : State) (a n : Nat) : s.loadBlock a n = { s with v := (s.loadBlock a n).v } := by
  induction n with
  | zero => rfl
  | succ n ih => rw [State.loadBlock, ih]; rfl

/-! The guards of an access (spec/20_memory.md R53, R57). -/

theorem inMemory_iff (base : Word) (len : Nat) : inMemory base len = true ↔ len = 0 ∨ base.toNat + len ≤ 4096 := by
  simp only [inMemory, Bool.or_eq_true, decide_eq_true_eq]
  exact Iff.rfl

theorem guardAccess_inside {base : Word} {len : Nat} (h : len = 0 ∨ base.toNat + len ≤ 4096) (s : State)
    (body : Host.Outcome State Fault Refusal) : guardAccess base len s body = body := by
  rw [guardAccess, if_pos ((inMemory_iff _ _).2 h)]

theorem guardAccess_outside {base : Word} {len : Nat} (h : ¬ (len = 0 ∨ base.toNat + len ≤ 4096)) (s : State)
    (body : Host.Outcome State Fault Refusal) : guardAccess base len s body = .next (s.raise .addressFault base) := by
  rw [guardAccess, if_neg fun e => h ((inMemory_iff _ _).1 e)]

/-- What an access can answer: its body's next state with the range inside memory, or the AddressFault. -/
theorem guardAccess_next {base : Word} {len : Nat} {s t : State} {body : Host.Outcome State Fault Refusal}
    (h : guardAccess base len s body = .next t) :
    (len = 0 ∨ base.toNat + len ≤ 4096) ∧ body = .next t
      ∨ ¬ (len = 0 ∨ base.toNat + len ≤ 4096) ∧ t = s.raise .addressFault base := by
  by_cases hm : len = 0 ∨ base.toNat + len ≤ 4096
  · exact .inl ⟨hm, (guardAccess_inside hm s body).symm.trans h⟩
  · rw [guardAccess_outside hm] at h
    exact .inr ⟨hm, by injection h with h; exact h.symm⟩

theorem guardLow_open {base : Word} {s : State} (h : s.config.protectLow = false ∨ 0x200 ≤ base.toNat)
    (body : Host.Outcome State Fault Refusal) : guardLow base s body = body := by
  rw [guardLow, if_neg]
  rw [Bool.and_eq_true, decide_eq_true_eq, programBase]
  rintro ⟨h1, h2⟩
  rcases h with h | h
  · rw [h] at h1; contradiction
  · omega

/-- A store that answers a next state was not refused. -/
theorem guardLow_next {base : Word} {s t : State} {body : Host.Outcome State Fault Refusal} (h : guardLow base s body = .next t) :
    body = .next t := by
  unfold guardLow at h
  split at h
  · cases h
  · exact h

/-! Pixels and drawing (spec/10_state.md R31, spec/42_display.md R141). -/

theorem FrameBuffer.pixel_setPixel (fb : FrameBuffer) (r r' : Fin 32) (c c' : Fin 64) (b : Bool) :
    (fb.setPixel r c b).pixel r' c' = if r' = r ∧ c' = c then b else fb.pixel r' c' := by
  simp only [FrameBuffer.setPixel, FrameBuffer.pixel, Fin.getElem_fin, Vector.getElem_set, Fin.ext_iff]
  grind

@[simp] theorem FrameBuffer.pixel_clear (r : Fin 32) (c : Fin 64) : FrameBuffer.clear.pixel r c = false := by
  simp [FrameBuffer.clear, FrameBuffer.pixel]

/-- Two framebuffers with the same pixels are equal. -/
theorem FrameBuffer.ext_pixel {fb fb' : FrameBuffer} (h : ∀ r c, fb.pixel r c = fb'.pixel r c) : fb = fb' := by
  apply Vector.ext
  intro i hi
  apply Vector.ext
  intro j hj
  exact h ⟨i, hi⟩ ⟨j, hj⟩

theorem drawPixel_pixel (r r' : Fin 32) (c c' : Fin 64) (b : Bool) (p : Canvas) :
    (drawPixel r c b p).1.pixel r' c' = if r' = r ∧ c' = c then (p.1.pixel r' c' ^^ b) else p.1.pixel r' c' := by
  obtain ⟨fb, hit⟩ := p
  simp only [drawPixel, FrameBuffer.pixel_setPixel]
  grind

theorem drawPixel_hit (r : Fin 32) (c : Fin 64) (b : Bool) (p : Canvas) :
    (drawPixel r c b p).2 = (p.2 || (p.1.pixel r c && b)) := by
  obtain ⟨fb, hit⟩ := p
  rfl

/-- The bit of a sprite row that falls on a column, for the first `n` of its 8 bits. -/
def rowBit (x0 : Nat) (b : Byte) (n : Nat) (c : Fin 64) : Bool :=
  let col := (c.val + 64 - x0 % 64) % 64
  decide (col < n) && b.getLsbD (7 - col)

/-- The next bit falls on one column, where none of the bits before it fell. -/
theorem rowBit_at (x0 : Nat) (b : Byte) (k : Nat) (hk : k < 8) (c : Fin 64) (hc : c = Fin.ofNat 64 (x0 + k)) :
    rowBit x0 b k c = false ∧ rowBit x0 b (k + 1) c = b.getLsbD (7 - k) := by
  have hcv : c.val = (x0 + k) % 64 := by rw [hc]; rfl
  have e : (c.val + 64 - x0 % 64) % 64 = k := by omega
  simp [rowBit, e]

theorem rowBit_off (x0 : Nat) (b : Byte) (k : Nat) (_hk : k < 8) (c : Fin 64) (hc : c ≠ Fin.ofNat 64 (x0 + k)) :
    rowBit x0 b (k + 1) c = rowBit x0 b k c := by
  have hcv : c.val ≠ (x0 + k) % 64 := fun e => hc (Fin.ext e)
  have e : (c.val + 64 - x0 % 64) % 64 < k + 1 ↔ (c.val + 64 - x0 % 64) % 64 < k := by
    have := c.isLt
    omega
  simp only [rowBit, e]

theorem drawBits_pixel (x0 : Nat) (r r' : Fin 32) (b : Byte) (n : Nat) (hn : n ≤ 8) (c : Fin 64) (p : Canvas) :
    (drawBits x0 r b n p).1.pixel r' c = if r' = r then (p.1.pixel r' c ^^ rowBit x0 b n c) else p.1.pixel r' c := by
  induction n with
  | zero => simp [drawBits, rowBit]
  | succ k ih =>
    rw [drawBits, drawPixel_pixel, ih (by omega)]
    by_cases hr : r' = r
    · by_cases hc : c = Fin.ofNat 64 (x0 + k)
      · obtain ⟨h0, h1⟩ := rowBit_at x0 b k (by omega) c hc
        rw [if_pos ⟨hr, hc⟩, if_pos hr, if_pos hr, h0, h1, Bool.xor_false]
      · rw [if_neg (fun h => hc h.2), if_pos hr, if_pos hr, rowBit_off x0 b k (by omega) c hc]
    · rw [if_neg (fun h => hr h.1), if_neg hr, if_neg hr]

theorem drawBits_hit (x0 : Nat) (r : Fin 32) (b : Byte) (n : Nat) (hn : n ≤ 8) (p : Canvas) :
    (drawBits x0 r b n p).2 = true ↔ p.2 = true ∨ ∃ c, p.1.pixel r c = true ∧ rowBit x0 b n c = true := by
  induction n with
  | zero => simp [drawBits, rowBit]
  | succ k ih =>
    obtain ⟨h0, h1⟩ := rowBit_at x0 b k (by omega) _ rfl
    rw [drawBits, drawPixel_hit, Bool.or_eq_true, ih (by omega), Bool.and_eq_true, drawBits_pixel _ _ _ _ _ (by omega), if_pos rfl,
      h0, Bool.xor_false]
    constructor
    · rintro ((h | ⟨c, h2, h3⟩) | ⟨h2, h3⟩)
      · exact .inl h
      · refine .inr ⟨c, h2, ?_⟩
        rw [rowBit_off x0 b k (by omega) c (fun e => by rw [e, h0] at h3; cases h3), h3]
      · exact .inr ⟨_, h2, h1.trans h3⟩
    · rintro (h | ⟨c, h2, h3⟩)
      · exact .inl (.inl h)
      · by_cases hc : c = Fin.ofNat 64 (x0 + k)
        · subst hc; exact .inr ⟨h2, h1.symm.trans h3⟩
        · exact .inl (.inr ⟨c, h2, (rowBit_off x0 b k (by omega) c hc).symm.trans h3⟩)

/-- The sprite bit that falls on a pixel, for rows drawn from row `y` on. -/
def rowsBit (x0 y : Nat) (rows : List Byte) (r : Fin 32) (c : Fin 64) : Bool :=
  let row := (r.val + 32 - y % 32) % 32
  match rows[row]? with
  | some b => rowBit x0 b 8 c
  | none => false

theorem rowsBit_cons (x0 y : Nat) (b : Byte) (rest : List Byte) (r : Fin 32) (c : Fin 64) :
    rowsBit x0 y (b :: rest) r c = if r = Fin.ofNat 32 y then rowBit x0 b 8 c else rowsBit x0 (y + 1) rest r c := by
  have hr := r.isLt
  by_cases e : r = Fin.ofNat 32 y
  · have ev : r.val = y % 32 := by rw [e]; rfl
    have : (r.val + 32 - y % 32) % 32 = 0 := by omega
    rw [if_pos e]
    simp only [rowsBit, this, List.getElem?_cons_zero]
  · have ev : r.val ≠ y % 32 := fun h => e (Fin.ext h)
    have : (r.val + 32 - y % 32) % 32 = (r.val + 32 - (y + 1) % 32) % 32 + 1 := by omega
    rw [if_neg e]
    simp only [rowsBit, this, List.getElem?_cons_succ]

theorem rowsBit_first (x0 y : Nat) (rest : List Byte) (h : rest.length < 32) (r : Fin 32) (c : Fin 64) (e : r = Fin.ofNat 32 y) :
    rowsBit x0 (y + 1) rest r c = false := by
  have ev : r.val = y % 32 := by rw [e]; rfl
  have : (r.val + 32 - (y + 1) % 32) % 32 = 31 := by omega
  simp only [rowsBit, this, List.getElem?_eq_none (show rest.length ≤ 31 by omega)]

/-- What drawing rows does to a pixel: an XOR with the sprite bit that falls on it (R141). No pixel is visited twice, since a sprite
has fewer than 32 rows. -/
theorem drawRows_pixel (rows : List Byte) (x0 y : Nat) (h : rows.length < 32) (p : Canvas) (r : Fin 32) (c : Fin 64) :
    (drawRows x0 y rows p).1.pixel r c = (p.1.pixel r c ^^ rowsBit x0 y rows r c) := by
  induction rows generalizing y p with
  | nil => simp [drawRows, rowsBit]
  | cons b rest ih =>
    rw [List.length_cons] at h
    rw [drawRows, ih (y + 1) (by omega), drawBits_pixel _ _ _ _ _ (Nat.le_refl 8), rowsBit_cons]
    by_cases e : r = Fin.ofNat 32 y
    · rw [if_pos e, if_pos e, rowsBit_first _ _ _ (by omega) _ _ e, Bool.xor_false]
    · rw [if_neg e, if_neg e]

/-- Drawing rows reports a collision exactly when a set pixel met a set sprite bit (R141). -/
theorem drawRows_hit (rows : List Byte) (x0 y : Nat) (h : rows.length < 32) (p : Canvas) :
    (drawRows x0 y rows p).2 = true
      ↔ p.2 = true ∨ ∃ r c, p.1.pixel r c = true ∧ rowsBit x0 y rows r c = true := by
  induction rows generalizing y p with
  | nil => simp [drawRows, rowsBit]
  | cons b rest ih =>
    rw [List.length_cons] at h
    rw [drawRows, ih (y + 1) (by omega), drawBits_hit _ _ _ _ (Nat.le_refl 8)]
    simp only [drawBits_pixel _ _ _ _ _ (Nat.le_refl 8), rowsBit_cons]
    constructor
    · rintro ((h0 | ⟨c, h1, h2⟩) | ⟨r, c, h1, h2⟩)
      · exact .inl h0
      · exact .inr ⟨_, c, h1, by rw [if_pos rfl]; exact h2⟩
      · have e : r ≠ Fin.ofNat 32 y := fun e => by rw [rowsBit_first _ _ _ (by omega) _ _ e] at h2; cases h2
        exact .inr ⟨r, c, by rw [if_neg e] at h1; exact h1, by rw [if_neg e]; exact h2⟩
    · rintro (h0 | ⟨r, c, h1, h2⟩)
      · exact .inl (.inl h0)
      · by_cases e : r = Fin.ofNat 32 y
        · rw [if_pos e] at h2; subst e; exact .inl (.inr ⟨c, h1, h2⟩)
        · rw [if_neg e] at h2; exact .inr ⟨r, c, by rw [if_neg e]; exact h1, h2⟩

@[simp] theorem State.readBytes_length (s : State) (a n : Nat) : (s.readBytes a n).length = n := by simp [State.readBytes]

theorem State.readBytes_getElem? (s : State) (a n k : Nat) :
    (s.readBytes a n)[k]? = if k < n then some (s.readByte (a + k)) else none := by
  simp only [State.readBytes, List.getElem?_map]
  by_cases h : k < n <;> simp [h]

/-! Timers (spec/43_timers.md R150). -/

theorem countDown_toNat (n : Nat) (t : Byte) : (countDown n t).toNat = t.toNat - n := by
  unfold countDown
  have := t.isLt
  split
  · next h => simp [h]
  · rw [BitVec.toNat_ofNat]; omega

theorem State.tick_dt_toNat (s : State) : s.tick.dt.toNat = s.dt.toNat - 1 := by
  rw [State.tick_dt]
  have := s.dt.isLt
  split
  · next h => simp [h]
  · next h =>
    have : s.dt.toNat ≠ 0 := fun e => h (BitVec.eq_of_toNat_eq e)
    simp; omega

theorem State.tick_st_toNat (s : State) : s.tick.st.toNat = s.st.toNat - 1 := by
  rw [State.tick_st]
  have := s.st.isLt
  split
  · next h => simp [h]
  · next h =>
    have : s.st.toNat ≠ 0 := fun e => h (BitVec.eq_of_toNat_eq e)
    simp; omega

@[simp] theorem State.ticks_zero (s : State) : s.ticks 0 = s := by
  have h : ∀ t : Byte, countDown 0 t = t := fun t => BitVec.eq_of_toNat_eq (by rw [countDown_toNat, Nat.sub_zero])
  simp only [State.ticks, h]

/-- `n + 1` ticks at once are one tick event and then `n`. -/
theorem State.ticks_succ (s : State) (n : Nat) : s.ticks (n + 1) = s.tick.ticks n := by
  have hd : countDown (n + 1) s.dt = countDown n s.tick.dt := BitVec.eq_of_toNat_eq (by
    rw [countDown_toNat, countDown_toNat, State.tick_dt_toNat]; omega)
  have hs : countDown (n + 1) s.st = countDown n s.tick.st := BitVec.eq_of_toNat_eq (by
    rw [countDown_toNat, countDown_toNat, State.tick_st_toNat]; omega)
  rw [State.ticks, hd, hs]; rfl

/-! The step (spec/30_encoding.md R70). -/

@[simp] theorem mapNext_next (f : State → State) (s : State) : mapNext f (.next s) = .next (f s) := rfl

theorem mapNext_eq_next {f : State → State} {o : Host.Outcome State Fault Refusal} {t : State} (h : mapNext f o = .next t) :
    ∃ u, o = .next u ∧ t = f u := by
  cases o with
  | next u => exact ⟨u, rfl, by injection h with h; exact h.symm⟩
  | fault r => exact nomatch r
  | refused r => cases h

/-- Everything the body of a step event can do: nothing when faulted; the fetch's AddressFault; an instruction of the core; or
DecodeFailure. -/
theorem stepBody_cases (s : State) :
    (s.fault ≠ none ∧ stepBody s = .next s)
    ∨ (s.fault = none ∧ s.pc.toNat > 0xFFE ∧ stepBody s = .next (s.raise .addressFault s.pc))
    ∨ (s.fault = none ∧ s.pc.toNat ≤ 0xFFE ∧ ∃ i, decodeWord s.fetchWord = .ok i ∧ i.wf s.config = true
        ∧ stepBody s = exec i s.advance)
    ∨ (s.fault = none ∧ s.pc.toNat ≤ 0xFFE ∧ (∀ i, decodeWord s.fetchWord = .ok i → i.wf s.config = false)
        ∧ stepBody s = .next (s.advance.raise .decodeFailure s.fetchWord)) := by
  by_cases hf : s.fault = none
  · refine .inr ?_
    by_cases hp : s.pc.toNat ≤ 0xFFE
    · refine .inr ?_
      have hb : stepBody s = dispatchWord s.fetchWord s.advance := by
        simp [stepBody, hf, State.fetchInMemory, hp]
      rw [hb, dispatchWord]
      cases hd : decodeWord s.fetchWord with
      | error e => exact .inr ⟨hf, hp, nofun, rfl⟩
      | ok i =>
        cases hw : i.wf s.config with
        | true => exact .inl ⟨hf, hp, i, rfl, hw, by simp [hw]⟩
        | false =>
          refine .inr ⟨hf, hp, fun j h => ?_, by simp [hw]⟩
          injection h with h
          rw [← h, hw]
    · exact .inl ⟨hf, by omega, by simp [stepBody, hf, State.fetchInMemory, hp]⟩
  · exact .inl ⟨hf, by simp [stepBody, Option.isSome_iff_ne_none.2 hf]⟩

end Sys2Proof.Machine
end

