-- ==== Sys2Proof/Laws/Exec.lean ====
section
/-! SUPPORT. What `exec` can do, said once: a next state either is the state with a fault raised, or leaves FAULT, the parameters and the
inputs alone; and what each instruction with a choice in it can answer. -/

namespace Sys2Proof.Machine

/-- What CALL can answer (spec/41_control.md R122). -/
theorem execCall_cases {nnn : Addr} {s t : State} (h : execCall nnn s = .next t) :
    (∃ hs : s.sp.val < 16, t = (s.push s.pc hs).setPc (extendAddr nnn))
      ∨ s.sp.val = 16 ∧ t = s.raise .stackOverflow (extendAddr nnn) := by
  unfold execCall at h
  split at h <;> injection h with h
  · next hs => exact .inl ⟨hs, h.symm⟩
  · exact .inr ⟨by have := s.sp.isLt; omega, h.symm⟩

/-- What RET can answer (R123). -/
theorem execRet_cases {s t : State} (h : execRet s = .next t) :
    (∃ hs : 0 < s.sp.val, t = (s.pop hs).2.setPc (s.pop hs).1) ∨ s.sp.val = 0 ∧ t = s.raise .stackUnderflow 0x0000#16 := by
  unfold execRet at h
  split at h <;> injection h with h
  · next hs => exact .inl ⟨hs, h.symm⟩
  · exact .inr ⟨by omega, h.symm⟩

/-- What a skip can answer (R124). -/
theorem skipIf_cases {c : Bool} {s t : State} (h : skipIf c s = .next t) : c = true ∧ t = s.advance ∨ c = false ∧ t = s := by
  unfold skipIf at h
  injection h with h
  cases c
  · exact .inr ⟨rfl, h.symm⟩
  · exact .inl ⟨rfl, h.symm⟩

/-- What DRW can answer (spec/42_display.md R141). -/
theorem execDrw_cases {x y : Reg} {n : Nibble} {s t : State} (h : execDrw x y n s = .next t) :
    (∃ p : Canvas, t = (s.setFb p.1).setFlag p.2) ∨ t = s.raise .addressFault s.i := by
  rcases guardAccess_next h with ⟨-, h⟩ | ⟨-, h⟩
  · injection h with h; exact .inl ⟨_, h.symm⟩
  · exact .inr h

/-- What LD B,Vx can answer (spec/45_index_memory.md R180). -/
theorem execLdB_cases {x : Reg} {s t : State} (h : execLdB x s = .next t) :
    s.i.toNat + 3 ≤ 4096 ∧ t = s.writeBytes s.i.toNat (decimalDigits (s.reg x)) ∨ t = s.raise .addressFault s.i := by
  rcases guardAccess_next h with ⟨hr, h⟩ | ⟨-, h⟩
  · have h := guardLow_next h
    injection h with h
    exact .inl ⟨by omega, h.symm⟩
  · exact .inr h

/-- What LD [I],Vx can answer (R181). -/
theorem execLdMemVx_cases {x : Reg} {s t : State} (h : execLdMemVx x s = .next t) :
    s.i.toNat + (x.toNat + 1) ≤ 4096 ∧ t = (s.writeBytes s.i.toNat (s.regBlock x)).moveI x ∨ t = s.raise .addressFault s.i := by
  rcases guardAccess_next h with ⟨hr, h⟩ | ⟨-, h⟩
  · have h := guardLow_next h
    injection h with h
    exact .inl ⟨by simp only [blockLength] at hr; omega, h.symm⟩
  · exact .inr h

/-- What LD Vx,[I] can answer (R182). -/
theorem execLdVxMem_cases {x : Reg} {s t : State} (h : execLdVxMem x s = .next t) :
    s.i.toNat + (x.toNat + 1) ≤ 4096 ∧ t = (s.loadBlock s.i.toNat (x.toNat + 1)).moveI x ∨ t = s.raise .addressFault s.i := by
  rcases guardAccess_next h with ⟨hr, h⟩ | ⟨-, h⟩
  · injection h with h
    exact .inl ⟨by simp only [blockLength] at hr; omega, h.symm⟩
  · exact .inr h

/-- I after a block transfer: moved or as it was, nothing else touched (R181, D12). -/
theorem State.moveI_cases (s : State) (x : Reg) :
    s.config.blockMovesI = true ∧ s.moveI x = s.setI (s.i + BitVec.ofNat 16 (x.toNat + 1))
      ∨ s.config.blockMovesI = false ∧ s.moveI x = s := by
  cases h : s.config.blockMovesI <;> simp [State.moveI, h, blockLength]

/-- What SKP can answer, by the key query (spec/44_input.md R161). -/
theorem execSkp_cases {x : Reg} {s t : State} (h : execSkp x s = .next t) :
    (s.keyQuery = none ∧ t = s)
      ∨ (∃ k, s.keyQuery = some k ∧ extendKey k = s.reg x ∧ t = (s.setKey (some k)).keySkip)
      ∨ ∃ k, s.keyQuery = some k ∧ extendKey k ≠ s.reg x ∧ t = s.setKey (some k) := by
  unfold execSkp at h
  injection h with h
  subst h
  cases s.keyQuery with
  | none => exact .inl ⟨rfl, rfl⟩
  | some k =>
    by_cases e : extendKey k = s.reg x
    · exact .inr (.inl ⟨k, rfl, e, by simp [e, State.recordKey]⟩)
    · exact .inr (.inr ⟨k, rfl, e, by simp [e, State.recordKey]⟩)

/-- What SKNP can answer, by the key query (R162). -/
theorem execSknp_cases {x : Reg} {s t : State} (h : execSknp x s = .next t) :
    (s.keyQuery = none ∧ s.config.sknpIdleSkips = false ∧ t = s)
      ∨ (s.keyQuery = none ∧ s.config.sknpIdleSkips = true ∧ t = s.keySkip)
      ∨ (∃ k, s.keyQuery = some k ∧ extendKey k ≠ s.reg x ∧ t = (s.setKey (some k)).keySkip)
      ∨ ∃ k, s.keyQuery = some k ∧ extendKey k = s.reg x ∧ t = s.setKey (some k) := by
  unfold execSknp at h
  injection h with h
  subst h
  cases s.keyQuery with
  | none =>
    cases hc : s.config.sknpIdleSkips
    · exact .inl ⟨rfl, rfl, by simp⟩
    · exact .inr (.inl ⟨rfl, rfl, by simp⟩)
  | some k =>
    by_cases e : extendKey k = s.reg x
    · exact .inr (.inr (.inr ⟨k, rfl, e, by simp [e, State.recordKey]⟩))
    · exact .inr (.inr (.inl ⟨k, rfl, e, by simp [e, State.recordKey]⟩))

/-- What LD Vx,K can answer, by the key query (R163). -/
theorem execLdVxK_cases {x : Reg} {s t : State} (h : execLdVxK x s = .next t) :
    (s.keyQuery = none ∧ t = s.setPc (s.pc - 2#16))
      ∨ ∃ k, s.keyQuery = some k ∧ t = (s.setKey (some k)).setReg x (extendKey k) := by
  unfold execLdVxK at h
  injection h with h
  subst h
  cases s.keyQuery with
  | none => exact .inl ⟨rfl, rfl⟩
  | some k => exact .inr ⟨k, rfl, rfl⟩

/-- A state that keeps FAULT, the parameters and the model's inputs of another. -/
def State.keepsControl (s t : State) : Prop := t.fault = s.fault ∧ t.config = s.config ∧ t.inputs = s.inputs ∧ t.clock = s.clock

theorem State.loadBlock_keepsControl (s : State) (a n : Nat) : s.keepsControl (s.loadBlock a n) := by
  rw [State.loadBlock_eq]; exact ⟨rfl, rfl, rfl, rfl⟩

/-- An instruction that answers a next state has raised a fault and done nothing else, or has left FAULT, the parameters and the
inputs alone (spec/60_exceptions.md R209). -/
theorem exec_next_cases {i : Instr} {s t : State} (h : exec i s = .next t) :
    (∃ k w, t = s.raise k w) ∨ s.keepsControl t := by
  cases i with
  | call nnn =>
    rcases execCall_cases h with ⟨hs, rfl⟩ | ⟨-, rfl⟩
    · exact .inr ⟨rfl, rfl, rfl, rfl⟩
    · exact .inl ⟨_, _, rfl⟩
  | ret =>
    rcases execRet_cases h with ⟨hs, rfl⟩ | ⟨-, rfl⟩
    · exact .inr ⟨rfl, rfl, rfl, rfl⟩
    · exact .inl ⟨_, _, rfl⟩
  | seImm x kk => rcases skipIf_cases h with ⟨-, rfl⟩ | ⟨-, rfl⟩ <;> exact .inr ⟨rfl, rfl, rfl, rfl⟩
  | sneImm x kk => rcases skipIf_cases h with ⟨-, rfl⟩ | ⟨-, rfl⟩ <;> exact .inr ⟨rfl, rfl, rfl, rfl⟩
  | seReg x y => rcases skipIf_cases h with ⟨-, rfl⟩ | ⟨-, rfl⟩ <;> exact .inr ⟨rfl, rfl, rfl, rfl⟩
  | sneReg x y => rcases skipIf_cases h with ⟨-, rfl⟩ | ⟨-, rfl⟩ <;> exact .inr ⟨rfl, rfl, rfl, rfl⟩
  | drw x y n =>
    rcases execDrw_cases h with ⟨p, rfl⟩ | rfl
    · exact .inr ⟨rfl, rfl, rfl, rfl⟩
    · exact .inl ⟨_, _, rfl⟩
  | ldB x =>
    rcases execLdB_cases h with ⟨-, rfl⟩ | rfl
    · exact .inr ⟨rfl, rfl, rfl, rfl⟩
    · exact .inl ⟨_, _, rfl⟩
  | ldMemVx x =>
    rcases execLdMemVx_cases h with ⟨-, rfl⟩ | rfl
    · refine .inr ?_
      rcases State.moveI_cases (s.writeBytes s.i.toNat (s.regBlock x)) x with ⟨-, e⟩ | ⟨-, e⟩ <;> rw [e] <;> exact ⟨rfl, rfl, rfl, rfl⟩
    · exact .inl ⟨_, _, rfl⟩
  | ldVxMem x =>
    rcases execLdVxMem_cases h with ⟨-, rfl⟩ | rfl
    · refine .inr ?_
      have hl := s.loadBlock_keepsControl s.i.toNat (x.toNat + 1)
      rcases State.moveI_cases (s.loadBlock s.i.toNat (x.toNat + 1)) x with ⟨-, e⟩ | ⟨-, e⟩ <;> rw [e] <;> exact hl
    · exact .inl ⟨_, _, rfl⟩
  | skp x => rcases execSkp_cases h with ⟨-, rfl⟩ | ⟨k, -, -, rfl⟩ | ⟨k, -, -, rfl⟩ <;> exact .inr ⟨rfl, rfl, rfl, rfl⟩
  | sknp x =>
    rcases execSknp_cases h with ⟨-, -, rfl⟩ | ⟨-, -, rfl⟩ | ⟨k, -, -, rfl⟩ | ⟨k, -, -, rfl⟩ <;> exact .inr ⟨rfl, rfl, rfl, rfl⟩
  | ldVxK x => rcases execLdVxK_cases h with ⟨-, rfl⟩ | ⟨k, -, rfl⟩ <;> exact .inr ⟨rfl, rfl, rfl, rfl⟩
  | _ => injection h with h; subst h; exact .inr ⟨rfl, rfl, rfl, rfl⟩

end Sys2Proof.Machine
end

