-- ==== Sys2Proof/Laws/PerInstr.lean ====
section
/-! SUPPORT. The family RowMatch: the word of an instruction selects its own row of the opcode map, `encode i &&& mask = match`
(spec/30_encoding.md R75), one lemma per constructor. -/

namespace Sys2Proof.Laws.RowMatch

/-- The encoding of `i` matches the row of spec/opcode_table.json that `i` stands for (R75). -/
def Statement (i : Instr) : Prop := encode i &&& i.row.mask = i.row.want

/-- A word of format NNN under the class mask (R74). -/
theorem encodeNnn_class (c : BitVec 4) (nnn : Addr) : encodeNnn c nnn &&& 0xF000#16 = encodeNnn c 0x000#12 := by
  apply BitVec.eq_of_getLsbD_eq
  intro j hj
  rw [BitVec.getLsbD_and, encodeNnn_bit, encodeNnn_bit]
  interval_cases j <;> simp

/-- A word of format XKK under the class mask (R74). -/
theorem encodeXkk_class (c : BitVec 4) (x : Reg) (kk : Byte) : encodeXkk c x kk &&& 0xF000#16 = encodeNnn c 0x000#12 := by
  apply BitVec.eq_of_getLsbD_eq
  intro j hj
  rw [BitVec.getLsbD_and, encodeXkk_bit, encodeNnn_bit]
  interval_cases j <;> simp

/-- A word of format X under the mask of class and low byte (R74). -/
theorem encodeXkk_byte (c : BitVec 4) (x : Reg) (kk : Byte) : encodeXkk c x kk &&& 0xF0FF#16 = encodeXkk c 0x0#4 kk := by
  apply BitVec.eq_of_getLsbD_eq
  intro j hj
  rw [BitVec.getLsbD_and, encodeXkk_bit, encodeXkk_bit]
  interval_cases j <;> simp

/-- A word of format XYN under the class mask (R74). -/
theorem encodeXyn_class (c : BitVec 4) (x y : Reg) (d : Nibble) : encodeXyn c x y d &&& 0xF000#16 = encodeNnn c 0x000#12 := by
  apply BitVec.eq_of_getLsbD_eq
  intro j hj
  rw [BitVec.getLsbD_and, encodeXyn_bit, encodeNnn_bit]
  interval_cases j <;> simp

/-- A word of format XY under the mask of class and low nibble (R74). -/
theorem encodeXyn_nibble (c : BitVec 4) (x y : Reg) (d : Nibble) : encodeXyn c x y d &&& 0xF00F#16 = encodeXyn c 0x0#4 0x0#4 d := by
  apply BitVec.eq_of_getLsbD_eq
  intro j hj
  rw [BitVec.getLsbD_and, encodeXyn_bit, encodeXyn_bit]
  interval_cases j <;> simp

theorem cls : Statement .cls := rfl

theorem ret : Statement .ret := rfl

theorem jp (nnn : Addr) : Statement (.jp nnn) := (encodeNnn_class _ _).trans rfl

theorem call (nnn : Addr) : Statement (.call nnn) := (encodeNnn_class _ _).trans rfl

theorem seImm (x : Reg) (kk : Byte) : Statement (.seImm x kk) := (encodeXkk_class _ _ _).trans rfl

theorem sneImm (x : Reg) (kk : Byte) : Statement (.sneImm x kk) := (encodeXkk_class _ _ _).trans rfl

theorem seReg (x : Reg) (y : Reg) : Statement (.seReg x y) := (encodeXyn_nibble _ _ _ _).trans rfl

theorem ldImm (x : Reg) (kk : Byte) : Statement (.ldImm x kk) := (encodeXkk_class _ _ _).trans rfl

theorem addImm (x : Reg) (kk : Byte) : Statement (.addImm x kk) := (encodeXkk_class _ _ _).trans rfl

theorem ldReg (x : Reg) (y : Reg) : Statement (.ldReg x y) := (encodeXyn_nibble _ _ _ _).trans rfl

theorem orReg (x : Reg) (y : Reg) : Statement (.orReg x y) := (encodeXyn_nibble _ _ _ _).trans rfl

theorem andReg (x : Reg) (y : Reg) : Statement (.andReg x y) := (encodeXyn_nibble _ _ _ _).trans rfl

theorem xorReg (x : Reg) (y : Reg) : Statement (.xorReg x y) := (encodeXyn_nibble _ _ _ _).trans rfl

theorem addReg (x : Reg) (y : Reg) : Statement (.addReg x y) := (encodeXyn_nibble _ _ _ _).trans rfl

theorem subReg (x : Reg) (y : Reg) : Statement (.subReg x y) := (encodeXyn_nibble _ _ _ _).trans rfl

theorem shr (x : Reg) (y : Reg) : Statement (.shr x y) := (encodeXyn_nibble _ _ _ _).trans rfl

theorem subnReg (x : Reg) (y : Reg) : Statement (.subnReg x y) := (encodeXyn_nibble _ _ _ _).trans rfl

theorem shl (x : Reg) (y : Reg) : Statement (.shl x y) := (encodeXyn_nibble _ _ _ _).trans rfl

theorem sneReg (x : Reg) (y : Reg) : Statement (.sneReg x y) := (encodeXyn_nibble _ _ _ _).trans rfl

theorem ldI (nnn : Addr) : Statement (.ldI nnn) := (encodeNnn_class _ _).trans rfl

theorem jpV0 (nnn : Addr) : Statement (.jpV0 nnn) := (encodeNnn_class _ _).trans rfl

theorem rnd (x : Reg) (kk : Byte) : Statement (.rnd x kk) := (encodeXkk_class _ _ _).trans rfl

theorem drw (x : Reg) (y : Reg) (n : Nibble) : Statement (.drw x y n) := (encodeXyn_class _ _ _ _).trans rfl

theorem skp (x : Reg) : Statement (.skp x) := (encodeXkk_byte _ _ _).trans rfl

theorem sknp (x : Reg) : Statement (.sknp x) := (encodeXkk_byte _ _ _).trans rfl

theorem ldVxDt (x : Reg) : Statement (.ldVxDt x) := (encodeXkk_byte _ _ _).trans rfl

theorem ldVxK (x : Reg) : Statement (.ldVxK x) := (encodeXkk_byte _ _ _).trans rfl

theorem ldDtVx (x : Reg) : Statement (.ldDtVx x) := (encodeXkk_byte _ _ _).trans rfl

theorem ldStVx (x : Reg) : Statement (.ldStVx x) := (encodeXkk_byte _ _ _).trans rfl

theorem addI (x : Reg) : Statement (.addI x) := (encodeXkk_byte _ _ _).trans rfl

theorem ldF (x : Reg) : Statement (.ldF x) := (encodeXkk_byte _ _ _).trans rfl

theorem ldB (x : Reg) : Statement (.ldB x) := (encodeXkk_byte _ _ _).trans rfl

theorem ldMemVx (x : Reg) : Statement (.ldMemVx x) := (encodeXkk_byte _ _ _).trans rfl

theorem ldVxMem (x : Reg) : Statement (.ldVxMem x) := (encodeXkk_byte _ _ _).trans rfl

end Sys2Proof.Laws.RowMatch
end

