-- ==== Sys2Proof/Tests/Slice0.lean ====
section
/-! SUPPORT. Tests: the checks of WellFormed, a word written out from spec/30_encoding.md R75 for every constructor, single steps with the
values of spec/95_test_vectors.md, and a witness for the hypotheses of every statement. Every expected value is the spec's. -/

namespace Sys2Proof.Tests

open Sys2Proof.Machine

/-! Small states: the reset state with some registers, and what one step event leaves of the fields looked at. -/

/-- The reset state with the registers given. -/
def regs (l : List (Reg × Byte)) : State := l.foldl (fun s p => s.setReg p.1 p.2) State.reset

/-- The same state with the input of the coming step event fixed: no tick, this key, this random byte. -/
def given (key : Option Key) (rnd : Byte) (s : State) : State := { s with inputs := [{ ticks := 0, key := key, rnd := rnd }] }

/-- What an outcome's next state shows, or nothing when there is none. -/
def seen {α : Type} (f : State → α) (o : Host.Outcome State Fault Refusal) : Option α :=
  match o with
  | .next t => some (f t)
  | _ => none

/-- One step event with the word `w` at PC, as every vector of spec/95_test_vectors.md Part 2 has it. -/
def run (w : Nat) (s : State) : Host.Outcome State Fault Refusal := stepEvent (s.withFetchWord 16 w)

/-- A setting with every switch away from its default. -/
def otherSetting : Config := { Config.default with hasRnd := false, sknpIdleSkips := true, blockMovesI := true, protectLow := true }

/-- The default setting but for PROTECT_LOW. -/
def protectOnly : Config := { Config.default with protectLow := true }

/-! WellFormed: each check refuses an ill-formed term. -/

theorem test_wf_rnd_refused_without_rnd : Instr.wf otherSetting (.rnd 0x3#4 0x0F#8) = false := by decide
theorem test_wf_rnd_accepted : Instr.wf Config.default (.rnd 0x3#4 0x0F#8) = true := by decide
theorem test_wf_image_too_long : imageFits (List.replicate 3585 0x00#8) = false :=
  decide_eq_false (by rw [List.length_replicate]; decide)
theorem test_wf_image_longest : imageFits (List.replicate 3584 0x00#8) = true :=
  decide_eq_true (by rw [List.length_replicate])

/-! Decoding: a word for every constructor, written from R75 (the digits of the pattern are bits 15 to 12, 11 to 8, 7 to 4, 3 to 0). -/

theorem test_decode_cls : decodeWord 0x00E0#16 = .ok .cls := by decide
theorem test_decode_ret : decodeWord 0x00EE#16 = .ok .ret := by decide
theorem test_decode_jp : decodeWord 0x1234#16 = .ok (.jp 0x234#12) := by decide
theorem test_decode_call : decodeWord 0x2300#16 = .ok (.call 0x300#12) := by decide
theorem test_decode_seImm : decodeWord 0x3FF1#16 = .ok (.seImm 0xF#4 0xF1#8) := by decide
theorem test_decode_sneImm : decodeWord 0x4123#16 = .ok (.sneImm 0x1#4 0x23#8) := by decide
theorem test_decode_seReg : decodeWord 0x5120#16 = .ok (.seReg 0x1#4 0x2#4) := by decide
theorem test_decode_ldImm : decodeWord 0x6AFF#16 = .ok (.ldImm 0xA#4 0xFF#8) := by decide
theorem test_decode_addImm : decodeWord 0x7102#16 = .ok (.addImm 0x1#4 0x02#8) := by decide
theorem test_decode_ldReg : decodeWord 0x8120#16 = .ok (.ldReg 0x1#4 0x2#4) := by decide
theorem test_decode_orReg : decodeWord 0x8AB1#16 = .ok (.orReg 0xA#4 0xB#4) := by decide
theorem test_decode_andReg : decodeWord 0x8AB2#16 = .ok (.andReg 0xA#4 0xB#4) := by decide
theorem test_decode_xorReg : decodeWord 0x8AB3#16 = .ok (.xorReg 0xA#4 0xB#4) := by decide
theorem test_decode_addReg : decodeWord 0x81F4#16 = .ok (.addReg 0x1#4 0xF#4) := by decide
theorem test_decode_subReg : decodeWord 0x8F15#16 = .ok (.subReg 0xF#4 0x1#4) := by decide
theorem test_decode_shr : decodeWord 0x8236#16 = .ok (.shr 0x2#4 0x3#4) := by decide
theorem test_decode_subnReg : decodeWord 0x8F17#16 = .ok (.subnReg 0xF#4 0x1#4) := by decide
theorem test_decode_shl : decodeWord 0x820E#16 = .ok (.shl 0x2#4 0x0#4) := by decide
theorem test_decode_sneReg : decodeWord 0x9120#16 = .ok (.sneReg 0x1#4 0x2#4) := by decide
theorem test_decode_ldI : decodeWord 0xA300#16 = .ok (.ldI 0x300#12) := by decide
theorem test_decode_jpV0 : decodeWord 0xB2FF#16 = .ok (.jpV0 0x2FF#12) := by decide
theorem test_decode_rnd : decodeWord 0xC30F#16 = .ok (.rnd 0x3#4 0x0F#8) := by decide
theorem test_decode_drw : decodeWord 0xD345#16 = .ok (.drw 0x3#4 0x4#4 0x5#4) := by decide
theorem test_decode_skp : decodeWord 0xE39E#16 = .ok (.skp 0x3#4) := by decide
theorem test_decode_sknp : decodeWord 0xE3A1#16 = .ok (.sknp 0x3#4) := by decide
theorem test_decode_ldVxDt : decodeWord 0xF307#16 = .ok (.ldVxDt 0x3#4) := by decide
theorem test_decode_ldVxK : decodeWord 0xFF0A#16 = .ok (.ldVxK 0xF#4) := by decide
theorem test_decode_ldDtVx : decodeWord 0xF315#16 = .ok (.ldDtVx 0x3#4) := by decide
theorem test_decode_ldStVx : decodeWord 0xF118#16 = .ok (.ldStVx 0x1#4) := by decide
theorem test_decode_addI : decodeWord 0xF31E#16 = .ok (.addI 0x3#4) := by decide
theorem test_decode_ldF : decodeWord 0xF129#16 = .ok (.ldF 0x1#4) := by decide
theorem test_decode_ldB : decodeWord 0xF333#16 = .ok (.ldB 0x3#4) := by decide
theorem test_decode_ldMemVx : decodeWord 0xF255#16 = .ok (.ldMemVx 0x2#4) := by decide
theorem test_decode_ldVxMem : decodeWord 0xF265#16 = .ok (.ldVxMem 0x2#4) := by decide

theorem test_decode_bytes_big_endian : decode [0x60#8, 0x0A#8, 0x61#8] = .ok (.ldImm 0x0#4 0x0A#8, [0x61#8]) := by decide
theorem test_decode_one_byte : decode [0x60#8] = .error .truncated := by decide
theorem test_decode_table_word : decodeTableWord 16 0xD345 = some (.drw 0x3#4 0x4#4 0x5#4) := by decide
theorem test_decode_table_illegal : decodeTableWord 16 0x8008 = none := by decide
theorem test_place_word_after_pc_left_memory :
    (({ State.reset with pc := 0x10FE#16 } : State).withFetchWord 16 0x600A).fetchWord = 0x600A#16 := by decide

/-! Illegal words (R77): FAULT = (1, the word), PC = 0202. -/

theorem test_illegal_class0 : seen (fun t => (t.faultOut, t.pc)) (run 0x0123 State.reset) = some (some (1, 0x0123#16), 0x0202#16) := by decide
theorem test_illegal_class5 : seen (fun t => (t.faultOut, t.pc)) (run 0x5121 State.reset) = some (some (1, 0x5121#16), 0x0202#16) := by decide
theorem test_illegal_class8 : seen (fun t => (t.faultOut, t.pc)) (run 0x812F State.reset) = some (some (1, 0x812F#16), 0x0202#16) := by decide
theorem test_illegal_class9 : seen (fun t => (t.faultOut, t.pc)) (run 0x912F State.reset) = some (some (1, 0x912F#16), 0x0202#16) := by decide
theorem test_illegal_classE : seen (fun t => (t.faultOut, t.pc)) (run 0xE09F State.reset) = some (some (1, 0xE09F#16), 0x0202#16) := by decide
theorem test_illegal_classF : seen (fun t => (t.faultOut, t.pc)) (run 0xF01F State.reset) = some (some (1, 0xF01F#16), 0x0202#16) := by decide
theorem test_rnd_switched_off :
    seen (fun t => t.faultOut) (run 0xC30F { State.reset with config := otherSetting }) = some (some (1, 0xC30F#16)) := by decide

/-! Arithmetic and logic (95_test_vectors.md 2.1). -/

theorem test_ldImm : seen (fun t => (t.reg 0xA#4, t.pc)) (run 0x6AFF State.reset) = some (0xFF#8, 0x0202#16) := by decide
theorem test_addImm_wraps_flag_kept :
    seen (fun t => (t.reg 0x1#4, t.reg 0xF#4)) (run 0x7102 (regs [(0x1#4, 0xFF#8), (0xF#4, 0x5A#8)])) = some (0x01#8, 0x5A#8) := by decide
theorem test_ldReg : seen (fun t => (t.reg 0x1#4, t.reg 0x2#4)) (run 0x8120 (regs [(0x2#4, 0x33#8)])) = some (0x33#8, 0x33#8) := by decide
theorem test_orReg : seen (fun t => (t.reg 0x0#4, t.reg 0xF#4))
    (run 0x8011 (regs [(0x0#4, 0xF0#8), (0x1#4, 0x0F#8), (0xF#4, 0x01#8)])) = some (0xFF#8, 0x01#8) := by decide
theorem test_andReg : seen (fun t => (t.reg 0x0#4, t.reg 0xF#4))
    (run 0x8012 (regs [(0x0#4, 0xF0#8), (0x1#4, 0x3C#8), (0xF#4, 0x01#8)])) = some (0x30#8, 0x01#8) := by decide
theorem test_xorReg : seen (fun t => (t.reg 0x0#4, t.reg 0xF#4))
    (run 0x8013 (regs [(0x0#4, 0xF0#8), (0x1#4, 0x3C#8), (0xF#4, 0x01#8)])) = some (0xCC#8, 0x01#8) := by decide
theorem test_addReg_carry : seen (fun t => (t.reg 0x0#4, t.reg 0xF#4))
    (run 0x8014 (regs [(0x0#4, 0xFF#8), (0x1#4, 0x01#8)])) = some (0x00#8, 0x01#8) := by decide
theorem test_addReg_flag_is_destination :
    seen (fun t => t.reg 0xF#4) (run 0x8F14 (regs [(0xF#4, 0x01#8), (0x1#4, 0x01#8)])) = some 0x00#8 := by decide
theorem test_subReg_borrow : seen (fun t => (t.reg 0x0#4, t.reg 0xF#4))
    (run 0x8015 (regs [(0x0#4, 0x05#8), (0x1#4, 0x06#8), (0xF#4, 0x01#8)])) = some (0xFF#8, 0x00#8) := by decide
theorem test_subReg_flag_is_operand : seen (fun t => (t.reg 0x1#4, t.reg 0xF#4))
    (run 0x81F5 (regs [(0x1#4, 0x03#8), (0xF#4, 0x05#8)])) = some (0xFE#8, 0x00#8) := by decide
theorem test_shr_ignores_y : seen (fun t => (t.reg 0x2#4, t.reg 0x3#4, t.reg 0xF#4))
    (run 0x8236 (regs [(0x2#4, 0x04#8), (0x3#4, 0xFF#8), (0xF#4, 0x01#8)])) = some (0x02#8, 0xFF#8, 0x00#8) := by decide
theorem test_shr_flag_is_destination : seen (fun t => t.reg 0xF#4) (run 0x8F06 (regs [(0xF#4, 0x02#8)])) = some 0x00#8 := by decide
theorem test_subnReg : seen (fun t => (t.reg 0x0#4, t.reg 0xF#4))
    (run 0x8017 (regs [(0x0#4, 0x05#8), (0x1#4, 0x0A#8)])) = some (0x05#8, 0x01#8) := by decide
theorem test_subnReg_borrow : seen (fun t => (t.reg 0x0#4, t.reg 0xF#4))
    (run 0x8017 (regs [(0x0#4, 0x0A#8), (0x1#4, 0x05#8)])) = some (0xFB#8, 0x00#8) := by decide
theorem test_shl : seen (fun t => (t.reg 0x2#4, t.reg 0xF#4)) (run 0x820E (regs [(0x2#4, 0x81#8)])) = some (0x02#8, 0x01#8) := by decide
theorem test_shl_flag_is_destination : seen (fun t => t.reg 0xF#4) (run 0x8F0E (regs [(0xF#4, 0x7F#8)])) = some 0x00#8 := by decide

/-! Control flow (2.2). -/

theorem test_jp : seen (fun t => t.pc) (run 0x1FFF State.reset) = some 0x0FFF#16 := by decide
theorem test_jpV0_reads_V0 : seen (fun t => t.pc) (run 0xB2FF (regs [(0x0#4, 0xFF#8), (0x2#4, 0x77#8)])) = some 0x03FE#16 := by decide
theorem test_jpV0_not_reduced : seen (fun t => t.pc) (run 0xBFFF (regs [(0x0#4, 0xFF#8)])) = some 0x10FE#16 := by decide
theorem test_call : seen (fun t => (t.stack[0], t.sp, t.pc)) (run 0x2300 State.reset) = some (0x0202#16, 1, 0x0300#16) := by decide
theorem test_call_overflow : seen (fun t => (t.faultOut, t.sp, t.pc)) (run 0x2300 { State.reset with sp := 16 })
    = some (some (2, 0x0300#16), 16, 0x0202#16) := by decide
theorem test_ret : seen (fun t => (t.sp, t.pc, t.stack[15]))
    (run 0x00EE { State.reset with sp := 16, stack := State.reset.stack.set 15 0x0ABC#16 }) = some (15, 0x0ABC#16, 0x0ABC#16) := by decide
theorem test_ret_underflow : seen (fun t => (t.faultOut, t.sp, t.pc)) (run 0x00EE State.reset)
    = some (some (3, 0x0000#16), 0, 0x0202#16) := by decide
theorem test_seImm_skips : seen (fun t => t.pc) (run 0x3FFF (regs [(0xF#4, 0xFF#8)])) = some 0x0204#16 := by decide
theorem test_seImm_stays : seen (fun t => t.pc) (run 0x3000 (regs [(0x0#4, 0x01#8)])) = some 0x0202#16 := by decide
theorem test_sneImm_skips : seen (fun t => t.pc) (run 0x4000 (regs [(0x0#4, 0x01#8)])) = some 0x0204#16 := by decide
theorem test_sneImm_stays : seen (fun t => t.pc) (run 0x4000 State.reset) = some 0x0202#16 := by decide
theorem test_seReg_skips : seen (fun t => t.pc) (run 0x5120 (regs [(0x1#4, 0x07#8), (0x2#4, 0x07#8)])) = some 0x0204#16 := by decide
theorem test_seReg_stays : seen (fun t => t.pc) (run 0x5120 (regs [(0x1#4, 0x07#8), (0x2#4, 0x08#8)])) = some 0x0202#16 := by decide
theorem test_sneReg_skips : seen (fun t => t.pc) (run 0x9120 (regs [(0x1#4, 0x07#8), (0x2#4, 0x08#8)])) = some 0x0204#16 := by decide
theorem test_sneReg_stays : seen (fun t => t.pc) (run 0x9330 (regs [(0x3#4, 0x09#8)])) = some 0x0202#16 := by decide

/-- R204: the fetch at 0FFF, and at 10FE, faults with PC kept. -/
theorem test_fetch_fault : seen (fun t => (t.faultOut, t.pc)) (stepEvent { State.reset with pc := 0x0FFF#16 })
    = some (some (4, 0x0FFF#16), 0x0FFF#16) := by decide
theorem test_last_fetch : seen (fun t => (t.reg 0x0#4, t.pc)) (run 0x6001 { State.reset with pc := 0x0FFE#16 })
    = some (0x01#8, 0x1000#16) := by decide

/-! Display (2.3). -/

theorem test_cls : seen (fun t => (t.fb.pixel 5 5, t.reg 0xF#4))
    (run 0x00E0 ((regs [(0xF#4, 0x01#8)]).setFb (FrameBuffer.clear.setPixel 5 5 true))) = some (false, 0x01#8) := by decide
theorem test_drw_wraps_columns : seen (fun t => (t.fb.pixel 0 63, t.fb.pixel 0 0, t.fb.pixel 0 1, t.reg 0xF#4))
    (run 0xD011 ({ regs [(0x0#4, 0x3F#8), (0xF#4, 0x01#8)] with i := 0x0300#16 }.writeBytes 0x300 [0xC0#8]))
      = some (true, true, false, 0x00#8) := by decide
theorem test_drw_range_fault : seen (fun t => (t.faultOut, t.pc, t.reg 0xF#4))
    (run 0xD01F { regs [(0xF#4, 0x01#8)] with i := 0x0FF2#16 }) = some (some (4, 0x0FF2#16), 0x0202#16, 0x01#8) := by decide

/-! Timers and the tick event (2.4). -/

theorem test_ldVxDt : seen (fun t => (t.reg 0x3#4, t.dt)) (run 0xF307 { State.reset with dt := 0x2A#8 }) = some (0x2A#8, 0x2A#8) := by decide
theorem test_ldDtVx : seen (fun t => t.dt) (run 0xF015 (regs [(0x0#4, 0x3C#8)])) = some 0x3C#8 := by decide
theorem test_ldStVx : seen (fun t => t.st) (run 0xF118 (regs [(0x1#4, 0x05#8)])) = some 0x05#8 := by decide
theorem test_tick : seen (fun t => (t.dt, t.st)) (applyEvent .tick { State.reset with dt := 0x01#8, st := 0xFF#8 })
    = some (0x00#8, 0xFE#8) := by decide
theorem test_tick_floor : seen (fun t => (t.dt, t.st)) (applyEvent .tick State.reset) = some (0x00#8, 0x00#8) := by decide
/-- R7: with DT = 01 and LD V0,DT at PC, tick before step gives V0 = 00. -/
theorem test_tick_before_step : seen (fun t => (t.reg 0x0#4, t.dt))
    (runEvents (coincident none true true) (({ State.reset with dt := 0x01#8 } : State).withFetchWord 16 0xF007)) = some (0x00#8, 0x00#8) := by
  decide
/-- The same through the machine's own step, with one tick before the step event. -/
theorem test_step_counts_its_ticks : seen (fun t => (t.reg 0x0#4, t.dt))
    (step (({ State.reset with dt := 0x03#8, inputs := [{ ticks := 1, key := none, rnd := 0x00#8 }] } : State).withFetchWord 16 0xF007))
      = some (0x02#8, 0x02#8) := by decide

/-! Input (2.5). -/

theorem test_skp_match : seen (fun t => (t.pc, t.key)) (run 0xE09E (given (some 0x5#4) 0x00#8 (regs [(0x0#4, 0x05#8)])))
    = some (0x0204#16, none) := by decide
theorem test_skp_compares_all_bits : seen (fun t => (t.pc, t.key)) (run 0xE09E (given (some 0x5#4) 0x00#8 (regs [(0x0#4, 0x15#8)])))
    = some (0x0202#16, some 0x5#4) := by decide
theorem test_sknp_mismatch : seen (fun t => (t.pc, t.key)) (run 0xE0A1 (given (some 0x6#4) 0x00#8 (regs [(0x0#4, 0x05#8)])))
    = some (0x0204#16, none) := by decide
theorem test_sknp_no_key : seen (fun t => (t.pc, t.key))
    (run 0xE0A1 (given none 0x00#8 { regs [(0x0#4, 0x05#8)] with key := some 0x9#4 })) = some (0x0202#16, some 0x9#4) := by decide
theorem test_ldVxK_waits : seen (fun t => (t.pc, t.reg 0x0#4)) (run 0xF00A (given none 0x00#8 (regs [(0x0#4, 0x33#8)])))
    = some (0x0200#16, 0x33#8) := by decide
theorem test_ldVxK_key : seen (fun t => (t.pc, t.reg 0x0#4, t.key)) (run 0xF00A (given (some 0xF#4) 0x00#8 (regs [(0x0#4, 0x33#8)])))
    = some (0x0202#16, 0x0F#8, some 0xF#4) := by decide

/-! Index register, memory transfer, random (2.6). -/

theorem test_ldI : seen (fun t => t.i) (run 0xAFFF State.reset) = some 0x0FFF#16 := by decide
theorem test_addI_leaves_memory : seen (fun t => (t.i, t.reg 0xF#4))
    (run 0xF01E { regs [(0x0#4, 0x03#8), (0xF#4, 0x05#8)] with i := 0x0FFE#16 }) = some (0x1001#16, 0x05#8) := by decide
theorem test_addI_wraps : seen (fun t => t.i) (run 0xF01E { regs [(0x0#4, 0x02#8)] with i := 0xFFFF#16 }) = some 0x0001#16 := by decide
theorem test_ldF_low_digit : seen (fun t => t.i) (run 0xF129 (regs [(0x1#4, 0x1A#8)])) = some 0x0032#16 := by decide
theorem test_ldB_last : seen (fun t => t.readBytes 0xFFD 3) (run 0xF033 { regs [(0x0#4, 0x7B#8)] with i := 0x0FFD#16 })
    = some [0x01#8, 0x02#8, 0x03#8] := by decide
theorem test_ldB_no_wrap : seen (fun t => (t.faultOut, t.readBytes 0 2)) (run 0xF033 { regs [(0x0#4, 0x7B#8)] with i := 0xFFFF#16 })
    = some (some (4, 0xFFFF#16), [0xF0#8, 0x90#8]) := by decide
theorem test_ldMemVx : seen (fun t => (t.readBytes 0x400 4, t.i))
    (run 0xF255 { regs [(0x0#4, 0x01#8), (0x1#4, 0x02#8), (0x2#4, 0x03#8), (0x3#4, 0x04#8)] with i := 0x0400#16 })
      = some ([0x01#8, 0x02#8, 0x03#8, 0x00#8], 0x0400#16) := by decide
theorem test_ldMemVx_fault : seen (fun t => (t.faultOut, t.readByte 0xFF1))
    (run 0xFF55 { regs [(0x0#4, 0x10#8)] with i := 0x0FF1#16 }) = some (some (4, 0x0FF1#16), 0x00#8) := by decide
theorem test_ldVxMem : seen (fun t => (t.reg 0x0#4, t.reg 0x2#4, t.reg 0x3#4, t.i))
    (run 0xF265 ({ regs [(0x3#4, 0x99#8)] with i := 0x0300#16 }.writeBytes 0x300 [0x02#8, 0x05#8, 0x04#8]))
      = some (0x02#8, 0x04#8, 0x99#8, 0x0300#16) := by decide
theorem test_ldVxMem_font : seen (fun t => (t.reg 0x5#4, t.reg 0xF#4)) (run 0xFF65 State.reset) = some (0x20#8, 0xF0#8) := by decide
theorem test_rnd : seen (fun t => t.reg 0x3#4) (run 0xC30F (given none 0xA7#8 State.reset)) = some 0x07#8 := by decide

/-! Model switches (00_scope.md R4), the parenthesised outcomes of the vectors. -/

theorem test_switch_sknp : seen (fun t => t.pc) (run 0xE0A1 (given none 0x00#8 { State.reset with config := otherSetting }))
    = some 0x0204#16 := by decide
theorem test_switch_block_moves : seen (fun t => t.i) (run 0xF255 { State.reset with i := 0x0400#16, config := otherSetting })
    = some 0x0403#16 := by decide

/-- R4: PROTECT_LOW refuses below 0x200 only. -/
theorem test_switch_protect_from_200 : seen (fun t => t.readBytes 0x200 3)
    (exec (.ldB 0x0#4) { regs [(0x0#4, 0xFE#8)] with i := 0x0200#16, config := protectOnly }) = some [0x02#8, 0x05#8, 0x04#8] := by decide
theorem test_switch_protect_below_200 : exec (.ldMemVx 0x1#4) { State.reset with i := 0x01FF#16, config := protectOnly }
    = .refused (.protectedLow 0x01FF#16) := by rfl

/-! Reset (3.1). -/

theorem test_reset : seen (fun t => (t.pc, t.fault, t.readBytes 0x200 3))
    (applyEvent (.reset [0x12#8, 0x00#8]) { State.reset with pc := 0x0ABC#16, fault := some { kind := .decodeFailure, info := 0x0000#16 } })
      = some (0x0200#16, none, [0x12#8, 0x00#8, 0x00#8]) := by decide +kernel
theorem test_empty_image : seen (fun t => t.faultOut) (stepEvent State.reset) = some (some (1, 0x0000#16)) := by decide

/-! Witnesses: for every statement with hypotheses, concrete states and operands that meet them together, one for each clause, at the
edges of its range. -/

theorem exists_of_seen {α : Type} {f : State → α} {o : Host.Outcome State Fault Refusal} {a : α} (h : seen f o = some a) :
    ∃ t, o = .next t ∧ f t = a := by
  cases o with
  | next t => exact ⟨t, rfl, by injection h⟩
  | fault r => exact nomatch r
  | refused r => cases h

/-- The reset state with a word placed where it fetches. -/
def at200 (w : Nat) : State := State.reset.withFetchWord 16 w

/-- The reset state with I given. -/
def withI (i : Word) : State := { State.reset with i := i }

/-- The reset state with I given and one switch setting given. -/
def under (c : Config) (i : Word) : State := { State.reset with i := i, config := c }

/-- The reset state with this many return addresses held. -/
def depth (n : Fin 17) : State := { State.reset with sp := n }

/-- A faulted state whose timers run. -/
def faulted : State := { State.reset with dt := 0x02#8, fault := some { kind := .decodeFailure, info := 0x0000#16 } }

theorem witness_EncodeInvertsDecode : decodeWord 0xFF65#16 = .ok (.ldVxMem 0xF#4) := by decide

/-- A word of each class at the edges of what is illegal there. -/
theorem witness_IllegalWordsExactly :
    decodeWord 0x0000#16 = .error .class0 ∧ decodeWord 0x00EF#16 = .error .class0 ∧ decodeWord 0x5001#16 = .error .class5
    ∧ decodeWord 0x8FF8#16 = .error .class8 ∧ decodeWord 0x8FFF#16 = .error .class8 ∧ decodeWord 0x9FFF#16 = .error .class9
    ∧ decodeWord 0xEFA2#16 = .error .classE ∧ decodeWord 0xF000#16 = .error .classF ∧ decodeWord 0xFFFF#16 = .error .classF := by decide

/-- The first and the last row, each with a word that matches it. -/
theorem witness_OpcodeRowsDecide :
    (∃ r, opcodeRows[(0 : Fin 34).val]? = some r ∧ 0x00E0#16 &&& r.mask = r.want)
    ∧ ∃ r, opcodeRows[(33 : Fin 34).val]? = some r ∧ 0xFF65#16 &&& r.mask = r.want :=
  ⟨⟨{ mask := 0xFFFF#16, want := 0x00E0#16 }, by decide, by decide⟩, ⟨{ mask := 0xF0FF#16, want := 0xF065#16 }, by decide, by decide⟩⟩

/-- The flag statements: a result register that is not VF, with sums of exactly 255 and 256. -/
theorem witness_AddSetsCarry : 0xE#4 ≠ 0xF#4
    ∧ ((regs [(0xE#4, 0xFF#8), (0x1#4, 0x00#8)]).reg 0xE#4).toNat + ((regs [(0xE#4, 0xFF#8), (0x1#4, 0x00#8)]).reg 0x1#4).toNat = 255
    ∧ ((regs [(0xE#4, 0xFF#8), (0x1#4, 0x01#8)]).reg 0xE#4).toNat + ((regs [(0xE#4, 0xFF#8), (0x1#4, 0x01#8)]).reg 0x1#4).toNat = 256 := by
  decide

/-- The subtract statements: a result register that is not VF, operands equal and one apart. -/
theorem witness_SubtractsSetNoBorrow : 0x0#4 ≠ 0xF#4
    ∧ ((regs [(0x0#4, 0x05#8), (0x1#4, 0x05#8)]).reg 0x0#4).toNat ≥ ((regs [(0x0#4, 0x05#8), (0x1#4, 0x05#8)]).reg 0x1#4).toNat
    ∧ ¬ ((regs [(0x0#4, 0x05#8), (0x1#4, 0x06#8)]).reg 0x0#4).toNat ≥ ((regs [(0x0#4, 0x05#8), (0x1#4, 0x06#8)]).reg 0x1#4).toNat := by
  decide

theorem witness_ShiftsSetFlagToBitOut : 0xE#4 ≠ 0xF#4 ∧ ((regs [(0xE#4, 0x81#8)]).reg 0xE#4).toNat % 2 = 1
    ∧ ((regs [(0xE#4, 0x81#8)]).reg 0xE#4).toNat / 128 = 1 := by decide

theorem witness_CallPushesOrOverflows : (depth 0).sp.val < 16 ∧ (depth 15).sp.val < 16 ∧ (depth 16).sp.val = 16 := by decide

theorem witness_RetPopsOrUnderflows : 0 < (depth 1).sp.val ∧ 0 < (depth 16).sp.val ∧ (depth 0).sp.val = 0 := by decide

/-- The last free slot, and a live slot beside it. -/
theorem witness_CallThenRetReturns : (depth 15).sp.val < 16 ∧ (14 : Fin 16).val ≠ (depth 15).sp.val := by decide

/-- No row at any I, and 15 rows ending at 0FFF. -/
theorem witness_DrwXorsSprite :
    ((0x0#4).toNat = 0 ∨ (withI 0xFFFF#16).i.toNat + (0x0#4).toNat - 1 ≤ 0xFFF)
    ∧ ((0xF#4).toNat = 0 ∨ (withI 0x0FF1#16).i.toNat + (0xF#4).toNat - 1 ≤ 0xFFF)
    ∧ (1 ≤ (0xF#4).toNat ∧ (withI 0x0FF2#16).i.toNat + (0xF#4).toNat - 1 > 0xFFF) := by decide

theorem witness_DrawTwiceErases : 0x0#4 ≠ 0xF#4 ∧ 0xE#4 ≠ 0xF#4
    ∧ ((0xF#4).toNat = 0 ∨ (withI 0x0FF1#16).i.toNat + (0xF#4).toNat - 1 ≤ 0xFFF) := by decide

/-- A sprite bit on a clear pixel changes the framebuffer without a collision: the premises of the last clause. -/
theorem witness_DrawTwiceErases_changes :
    ∃ t, exec (.drw 0x0#4 0x1#4 0x1#4) ((withI 0x0300#16).writeBytes 0x300 [0x80#8]) = .next t
      ∧ (t.fb.pixel 0 0, t.reg 0xF#4) = (true, 0x00#8) := exists_of_seen (by decide)

theorem witness_SknpSkipsOnMismatch : State.reset.config.sknpIdleSkips = false := by decide

theorem witness_SknpIdleSkips : (under otherSetting 0x0000#16).config.sknpIdleSkips = true := by decide

theorem witness_LdVxKWaitsForKey : (given (some 0xF#4) 0x00#8 State.reset).keyQuery = some 0xF#4
    ∧ (given none 0x00#8 State.reset).keyQuery = none := by decide

theorem witness_WaitingStepChangesNothing :
    (given none 0x00#8 (at200 0xF00A)).executes (.ldVxK 0x0#4) ∧ (given none 0x00#8 (at200 0xF00A)).input.key = none
      ∧ (given none 0x00#8 (at200 0xF00A)).input.ticks = 0 := ⟨⟨by decide, by decide, by decide, by decide⟩, by decide, by decide⟩

/-- Other inputs with the same key, and with the same random byte. -/
theorem witness_InputsSampledOnce :
    (samples (.skp 0x0#4) = .key ∧ ({ given (some 0x5#4) 0x00#8 State.reset with
        inputs := [{ ticks := 9, key := some 0x5#4, rnd := 0xFF#8 }], clock := 7 } : State).keyQuery
      = (given (some 0x5#4) 0x00#8 State.reset).keyQuery)
    ∧ samples (.rnd 0x3#4 0x0F#8) = .rnd ∧ ({ given none 0xA7#8 State.reset with
        inputs := [{ ticks := 9, key := some 0x5#4, rnd := 0xA7#8 }], clock := 7 } : State).rndIn
      = (given none 0xA7#8 State.reset).rndIn := by decide

/-- The last I in the default setting, 0x200 under PROTECT_LOW, and the first I that faults. -/
theorem witness_LdBStoresDigits :
    ((withI 0x0FFD#16).config.protectLow = false ∧ (withI 0x0FFD#16).i.toNat + 2 ≤ 0xFFF)
    ∧ ((under otherSetting 0x0200#16).config.protectLow = true ∧ 0x200 ≤ (under otherSetting 0x0200#16).i.toNat
      ∧ (under otherSetting 0x0200#16).i.toNat + 2 ≤ 0xFFF)
    ∧ (withI 0x0FFE#16).i.toNat + 2 > 0xFFF := by decide

theorem witness_BlockStoreWritesRegisters :
    ((withI 0x0FF0#16).config.blockMovesI = false ∧ (withI 0x0FF0#16).config.protectLow = false
      ∧ (withI 0x0FF0#16).i.toNat + (0xF#4).toNat ≤ 0xFFF)
    ∧ ((under protectOnly 0x0200#16).config.blockMovesI = false ∧ (under protectOnly 0x0200#16).config.protectLow = true
      ∧ 0x200 ≤ (under protectOnly 0x0200#16).i.toNat ∧ (under protectOnly 0x0200#16).i.toNat + (0xF#4).toNat ≤ 0xFFF)
    ∧ (withI 0x0FF1#16).i.toNat + (0xF#4).toNat > 0xFFF := by decide

theorem witness_BlockLoadReadsRegisters : (withI 0x0FF0#16).config.blockMovesI = false
    ∧ (withI 0x0FF0#16).i.toNat + (0xF#4).toNat ≤ 0xFFF
    ∧ (withI 0x0FF1#16).config.blockMovesI = false ∧ (withI 0x0FF1#16).i.toNat + (0xF#4).toNat > 0xFFF := by decide

theorem witness_BlockTransferMovesI :
    (under { Config.default with blockMovesI := true } 0x0FF0#16).config.blockMovesI = true
    ∧ (under { Config.default with blockMovesI := true } 0x0FF0#16).i.toNat + (0xF#4).toNat ≤ 0xFFF
    ∧ (under { Config.default with blockMovesI := true } 0x0FF0#16).config.protectLow = false
    ∧ (under otherSetting 0x0200#16).config.blockMovesI = true
    ∧ (under otherSetting 0x0200#16).i.toNat + (0xF#4).toNat ≤ 0xFFF
    ∧ (under otherSetting 0x0200#16).config.protectLow = true ∧ 0x200 ≤ (under otherSetting 0x0200#16).i.toNat := by decide

theorem witness_ProtectLowRefusesStores : (under otherSetting 0x01FF#16).config.protectLow = true
    ∧ (under otherSetting 0x01FF#16).i.toNat < 0x200 := by decide

/-- The first address of each access whose last byte is 1000. -/
theorem witness_AccessesOutsideMemoryFault :
    (({ State.reset with pc := 0x0FFF#16 } : State).fault = none ∧ ({ State.reset with pc := 0x0FFF#16 } : State).pc.toNat > 0xFFE)
    ∧ (1 ≤ (0x1#4).toNat ∧ (withI 0x1000#16).i.toNat + (0x1#4).toNat - 1 > 0xFFF)
    ∧ (1 ≤ (0xF#4).toNat ∧ (withI 0x0FF2#16).i.toNat + (0xF#4).toNat - 1 > 0xFFF)
    ∧ (withI 0x0FFE#16).i.toNat + 2 > 0xFFF ∧ (withI 0x0FF1#16).i.toNat + (0xF#4).toNat > 0xFFF
    ∧ (withI 0x1000#16).i.toNat + (0x0#4).toNat > 0xFFF := by decide

/-- 0000 at the last fetch address, and RND where it is switched off. -/
theorem witness_IllegalWordRaisesDecodeFailure :
    (({ State.reset with pc := 0x0FFE#16 } : State).fault = none ∧ ({ State.reset with pc := 0x0FFE#16 } : State).pc.toNat ≤ 0xFFE
      ∧ ({ State.reset with pc := 0x0FFE#16 } : State).illegalWord)
    ∧ ({ at200 0xC30F with config := otherSetting } : State).illegalWord := by
  have h1 : decodeWord ({ State.reset with pc := 0x0FFE#16 } : State).fetchWord = .error .class0 := by decide
  have h2 : decodeWord ({ at200 0xC30F with config := otherSetting } : State).fetchWord = .ok (.rnd 0x3#4 0x0F#8) := by decide
  refine ⟨⟨by decide, by decide, fun i h => ?_⟩, fun i h => ?_⟩
  · rw [h1] at h; cases h
  · rw [h2] at h; injection h with h; subst h; rfl

theorem witness_StoreIsSeenByNextFetch :
    ((withI 0x0200#16).config.protectLow = false ∧ 1 ≤ (0x1#4).toNat ∧ (withI 0x0200#16).i = (withI 0x0200#16).pc
      ∧ (withI 0x0200#16).i.toNat + (0x1#4).toNat ≤ 0xFFF)
    ∧ ((under protectOnly 0x0200#16).config.protectLow = true ∧ 0x200 ≤ (under protectOnly 0x0200#16).i.toNat
      ∧ (under protectOnly 0x0200#16).i = (under protectOnly 0x0200#16).pc
      ∧ (under protectOnly 0x0200#16).i.toNat + (0x1#4).toNat ≤ 0xFFF) := by decide

theorem witness_StepRunsDecodedInstruction :
    (({ State.reset with pc := 0x0FFE#16 } : State).withFetchWord 16 0x6001).executes (.ldImm 0x0#4 0x01#8) :=
  ⟨by decide, by decide, by decide, by decide⟩

theorem witness_CoincidentStrobes : imageFits [0x12#8, 0x00#8] = true := by decide

/-- A step that does not fault, one that faults after the fetch, one whose fetch faults, one taken while faulted. -/
theorem witness_PcAfterStep :
    ((at200 0x1234).executes (.jp 0x234#12) ∧ ∃ t, stepEvent (at200 0x1234) = .next t ∧ t.fault = none)
    ∧ ((at200 0x00EE).fault = none ∧ (at200 0x00EE).pc.toNat ≤ 0xFFE ∧ ∃ t, stepEvent (at200 0x00EE) = .next t ∧ t.fault.isSome = true)
    ∧ (({ State.reset with pc := 0x0FFF#16 } : State).fault = none ∧ ({ State.reset with pc := 0x0FFF#16 } : State).pc.toNat > 0xFFE
      ∧ ∃ t, stepEvent { State.reset with pc := 0x0FFF#16 } = .next t ∧ t.pc = 0x0FFF#16)
    ∧ (faulted.fault ≠ none ∧ ∃ t, stepEvent faulted = .next t ∧ t.pc = 0x0200#16) :=
  ⟨⟨⟨by decide, by decide, by decide, by decide⟩, exists_of_seen (by decide)⟩,
   ⟨by decide, by decide, exists_of_seen (by decide)⟩,
   ⟨by decide, by decide, exists_of_seen (by decide)⟩, ⟨by decide, exists_of_seen (by decide)⟩⟩

/-- A state faulted in each of the four ways, and the longest image. -/
theorem witness_FaultedCoreIsFrozen :
    (∀ k : FaultKind, k ∈ [FaultKind.decodeFailure, .stackOverflow, .stackUnderflow, .addressFault] →
      (faulted.raise k 0xFFFF#16).fault = some { kind := k, info := 0xFFFF#16 })
    ∧ (List.replicate 3584 0x00#8 : List Byte).length ≤ 3584 :=
  ⟨fun _ _ => rfl, by rw [List.length_replicate]⟩

theorem witness_FirstFaultStays : (∀ prog, Event.reset prog ∉ [Event.step, Event.tick])
    ∧ faulted.fault = some { kind := .decodeFailure, info := 0x0000#16 }
    ∧ ∃ t, runEvents [.step, .tick] faulted = .next t ∧ t.dt = 0x01#8 :=
  ⟨by simp, by decide, exists_of_seen (by decide)⟩

/-- A fault after the fetch at the last fetch address, and the fetch's own. -/
theorem witness_FaultsArePrecise :
    (({ State.reset with pc := 0x0FFE#16 } : State).fault = none ∧ ({ State.reset with pc := 0x0FFE#16 } : State).pc.toNat ≤ 0xFFE
      ∧ ∃ t, stepEvent { State.reset with pc := 0x0FFE#16 } = .next t
        ∧ t.fault = some { kind := .decodeFailure, info := 0x0000#16 })
    ∧ ({ State.reset with pc := 0x0FFF#16 } : State).pc.toNat > 0xFFE
    ∧ ∃ t, stepEvent { State.reset with pc := 0x0FFF#16 } = .next t ∧ t.fault = some { kind := .addressFault, info := 0x0FFF#16 } :=
  ⟨⟨by decide, by decide, exists_of_seen (by decide)⟩, by decide, exists_of_seen (by decide)⟩

/-- Each of the three faults an instruction raises. -/
theorem witness_OneFaultPerInstruction :
    (∃ t, exec (.call 0x300#12) (depth 16) = .next t ∧ t.fault = some { kind := .stackOverflow, info := 0x0300#16 })
    ∧ (∃ t, exec .ret (depth 0) = .next t ∧ t.fault = some { kind := .stackUnderflow, info := 0x0000#16 })
    ∧ (∃ t, exec (.ldB 0x0#4) (withI 0x0FFE#16) = .next t ∧ t.fault = some { kind := .addressFault, info := 0x0FFE#16 }) :=
  ⟨exists_of_seen (by decide), exists_of_seen (by decide), exists_of_seen (by decide)⟩

theorem witness_StepNeverStops : faulted.config.protectLow = false := by decide

theorem witness_RegisterWriters : ∃ t, exec (.ldImm 0xF#4 0x01#8) State.reset = .next t ∧ t.reg 0xF#4 = 0x01#8 :=
  exists_of_seen (by decide)

/-- An instruction that changes I (also by the switch), the depth, a stack slot, a timer, KEY. -/
theorem witness_IndexStackTimerKeyWriters :
    (∃ t, exec (.ldI 0x300#12) State.reset = .next t ∧ t.i = 0x0300#16)
    ∧ (∃ t, exec (.ldVxMem 0x0#4) (under { Config.default with blockMovesI := true } 0x0000#16) = .next t ∧ t.i = 0x0001#16)
    ∧ (∃ t, exec (.call 0x300#12) State.reset = .next t ∧ (t.sp, t.stack[0]) = (1, 0x0200#16))
    ∧ (∃ t, exec (.ldDtVx 0x0#4) (regs [(0x0#4, 0x3C#8)]) = .next t ∧ t.dt = 0x3C#8)
    ∧ (∃ t, exec (.ldStVx 0x0#4) (regs [(0x0#4, 0x05#8)]) = .next t ∧ t.st = 0x05#8)
    ∧ (∃ t, exec (.ldVxK 0x0#4) (given (some 0x7#4) 0x00#8 State.reset) = .next t ∧ t.key = some 0x7#4) :=
  ⟨exists_of_seen (by decide), exists_of_seen (by decide), exists_of_seen (by decide), exists_of_seen (by decide),
   exists_of_seen (by decide), exists_of_seen (by decide)⟩

/-- The last bytes of memory changed by each storing instruction. -/
theorem witness_MemoryWriters :
    (∃ t, exec (.ldB 0x0#4) { regs [(0x0#4, 0x7B#8)] with i := 0x0FFD#16 } = .next t ∧ t.readByte 0xFFF = 0x03#8)
    ∧ ∃ t, exec (.ldMemVx 0xF#4) { regs [(0xF#4, 0x1F#8)] with i := 0x0FF0#16 } = .next t ∧ t.readByte 0xFFF = 0x1F#8 :=
  ⟨exists_of_seen (by decide), exists_of_seen (by decide)⟩

/-- A pixel changed by DRW and by reset. -/
theorem witness_FramebufferWriters :
    (∃ t, applyEvent .step ((at200 0xD011).writeBytes 0 [0x80#8]) = .next t ∧ t.fb.pixel 0 0 = true)
    ∧ ∃ t, applyEvent (.reset []) (State.reset.setFb (FrameBuffer.clear.setPixel 0 0 true)) = .next t ∧ t.fb.pixel 0 0 = false :=
  ⟨exists_of_seen (by decide), exists_of_seen (by decide)⟩

/-- A step that writes KEY. -/
theorem witness_KeyDecidesNothing :
    ∃ t, step (given (some 0x6#4) 0x00#8 (at200 0xE09E)) = .next t ∧ t.key = some 0x6#4 := exists_of_seen (by decide)

/-- A step that counts ST down. -/
theorem witness_SoundTimerDecidesNothing :
    ∃ t, step ({ at200 0x6001 with st := 0x05#8, inputs := [{ ticks := 2, key := none, rnd := 0x00#8 }] } : State) = .next t
      ∧ t.st = 0x03#8 := exists_of_seen (by decide)

theorem witness_ResetSetsEveryItem : (List.replicate 3584 0xFF#8 : List Byte).length ≤ 3584 := by rw [List.length_replicate]

/-- A canonical memory with entries, and a step that stores into it. -/
theorem witness_StepKeepsMemoryCanonical :
    (given none 0x00#8 { (at200 0xF033).setReg 0x0#4 0x7B#8 with i := 0x0FFD#16 }).memoryCanonical = true
    ∧ ∃ t, step (given none 0x00#8 { (at200 0xF033).setReg 0x0#4 0x7B#8 with i := 0x0FFD#16 }) = .next t ∧ t.readByte 0xFFF = 0x03#8 :=
  ⟨by decide, exists_of_seen (by decide)⟩

/-- A return to the largest return address from a bounded state, and a jump to the largest PC. -/
theorem witness_StepKeepsPcBounded :
    ((given none 0x00#8 { at200 0x00EE with sp := 1, stack := Vector.replicate 16 0x1000#16 }).pcBounded
      ∧ ∃ t, step (given none 0x00#8 { at200 0x00EE with sp := 1, stack := Vector.replicate 16 0x1000#16 }) = .next t ∧ t.pc = 0x1000#16)
    ∧ (given none 0x00#8 ((at200 0xBFFF).setReg 0x0#4 0xFF#8)).pcBounded
    ∧ ∃ t, step (given none 0x00#8 ((at200 0xBFFF).setReg 0x0#4 0xFF#8)) = .next t ∧ t.pc = 0x10FE#16 :=
  ⟨⟨⟨by decide, by decide⟩, exists_of_seen (by decide)⟩, ⟨by decide, by decide⟩, exists_of_seen (by decide)⟩

/-- A step event that runs an instruction and one of a faulted core, each with an input to use up. -/
theorem witness_StepEventUsesOneInput :
    (∃ t, stepEvent (given none 0x00#8 (at200 0x6001)) = .next t ∧ t.reg 0x0#4 = 0x01#8)
    ∧ ∃ t, stepEvent (given none 0x00#8 faulted) = .next t ∧ t.fault.isSome = true :=
  ⟨exists_of_seen (by decide), exists_of_seen (by decide)⟩

end Sys2Proof.Tests
end

section
/-! PROOFS. The statements about the scope of the model (spec/00_scope.md): the switches of R4, the events of R5 to R7 in their order,
and what every step event keeps. The lemmas on the operations and on `exec` come first; each statement is then a short use of them. -/

namespace Sys2Proof.Machine

/-! The guards of an access, in the cases that Laws/Ops.lean leaves open. -/

/-- Under PROTECT_LOW a store below 0x200 is refused whole, whatever its body is (spec/00_scope.md R4). -/
theorem guardLow_refused {base : Word} {s : State} (hp : s.config.protectLow = true) (hb : base.toNat < 0x200)
    (body : Host.Outcome State Fault Refusal) : guardLow base s body = .refused (.protectedLow base) := by
  rw [guardLow, if_pos (by simp [hp, programBase, hb])]

/-- An access whose body completes answers a next state: the body's, or the AddressFault's. -/
theorem guardAccess_of_next (base : Word) (len : Nat) (s u : State) : ∃ t, guardAccess base len s (.next u) = .next t := by
  by_cases hm : len = 0 ∨ base.toNat + len ≤ 4096
  · exact ⟨u, guardAccess_inside hm s _⟩
  · exact ⟨_, guardAccess_outside hm s _⟩

/-! The block transfers (spec/45_index_memory.md R181, R182). -/

@[simp] theorem State.moveI_readByte (s : State) (x : Reg) (a : Nat) : (s.moveI x).readByte a = s.readByte a := by
  rcases s.moveI_cases x with ⟨-, e⟩ | ⟨-, e⟩ <;> rw [e]
  rfl

@[simp] theorem State.moveI_reg (s : State) (x k : Reg) : (s.moveI x).reg k = s.reg k := by
  rcases s.moveI_cases x with ⟨-, e⟩ | ⟨-, e⟩ <;> rw [e]
  rfl

theorem State.moveI_of_blockMovesI {s : State} (h : s.config.blockMovesI = true) (x : Reg) :
    s.moveI x = s.setI (s.i + BitVec.ofNat 16 (x.toNat + 1)) := by
  rw [State.moveI, if_pos h, blockLength]

/-- I past a block that lies in memory: the 16-bit sum does not wrap. -/
theorem toNat_pastBlock {w : Word} {x : Reg} (h : w.toNat + x.toNat ≤ 0xFFF) :
    (w + BitVec.ofNat 16 (x.toNat + 1)).toNat = w.toNat + x.toNat + 1 := by
  rw [BitVec.toNat_add, BitVec.toNat_ofNat]
  omega

/-- A stored block holds V0 to Vx in ascending order (R181). -/
theorem State.readByte_writeBlock_inside (s : State) (a : Nat) {x k : Reg} (h : k.toNat ≤ x.toNat) :
    (s.writeBytes a (s.regBlock x)).readByte (a + k.toNat) = s.reg k := by
  have hk : a ≤ a + k.toNat ∧ a + k.toNat < a + (s.regBlock x).length := by
    rw [State.regBlock_length]; omega
  rw [State.readByte_writeBytes, dif_pos hk, State.regBlock_getElem]
  simp

/-- A block store leaves every byte before and after its block (R52). -/
theorem State.readByte_writeBlock_outside (s : State) {a c : Nat} {x : Reg} (h : c < a ∨ a + x.toNat < c) :
    (s.writeBytes a (s.regBlock x)).readByte c = s.readByte c := by
  rw [State.readByte_writeBytes, dif_neg (by rw [State.regBlock_length]; omega)]

/-- A block store inside memory is up to PROTECT_LOW only. -/
theorem exec_ldMemVx_inside {s : State} {x : Reg} (h : s.i.toNat + x.toNat ≤ 0xFFF) :
    exec (.ldMemVx x) s = guardLow s.i s (.next ((s.writeBytes s.i.toNat (s.regBlock x)).moveI x)) :=
  guardAccess_inside (.inr (by rw [blockLength]; omega)) _ _

/-- A digit store inside memory is up to PROTECT_LOW only (R180). -/
theorem exec_ldB_inside {s : State} {x : Reg} (h : s.i.toNat + 2 ≤ 0xFFF) :
    exec (.ldB x) s = guardLow s.i s (.next (s.writeBytes s.i.toNat (decimalDigits (s.reg x)))) :=
  guardAccess_inside (.inr (by omega)) _ _

/-- A block load inside memory completes (R182). -/
theorem exec_ldVxMem_inside {s : State} {x : Reg} (h : s.i.toNat + x.toNat ≤ 0xFFF) :
    exec (.ldVxMem x) s = .next ((s.loadBlock s.i.toNat (x.toNat + 1)).moveI x) :=
  guardAccess_inside (.inr (by rw [blockLength]; omega)) _ _

/-! SKNP by the answer of the key query (spec/44_input.md R162). -/

/-- The key compare takes in all 8 bits of the register (R161). -/
theorem extendKey_eq_iff (k : Key) (b : Byte) : extendKey k = b ↔ k.toNat = b.toNat := by
  have hk : (extendKey k).toNat = k.toNat := by
    rw [extendKey, BitVec.toNat_setWidth]
    omega
  rw [← BitVec.toNat_inj, hk]

theorem exec_sknp_of_key {s : State} {k : Key} (h : s.keyQuery = some k) (x : Reg) :
    exec (.sknp x) s
      = .next (if k.toNat = (s.reg x).toNat then s.setKey (some k) else (s.setKey (some k)).keySkip) := by
  simp only [exec, execSknp, h, State.recordKey, ne_eq, ite_not, extendKey_eq_iff]

theorem exec_sknp_of_noKey {s : State} (h : s.keyQuery = none) (x : Reg) :
    exec (.sknp x) s = .next (if s.config.sknpIdleSkips then s.keySkip else s) := by
  simp only [exec, execSknp, h]

/-! Every instruction completes when PROTECT_LOW is off (spec/60_exceptions.md R209). -/

/-- With PROTECT_LOW off, an instruction answers a next state: its faults are next states too. -/
theorem exec_next_of_unprotected {s : State} (hp : s.config.protectLow = false) (i : Instr) : ∃ t, exec i s = .next t := by
  cases i with
  | call nnn =>
    by_cases hs : s.sp.val < 16
    · exact ⟨_, dif_pos hs⟩
    · exact ⟨_, dif_neg hs⟩
  | ret =>
    by_cases hs : 0 < s.sp.val
    · exact ⟨_, dif_pos hs⟩
    · exact ⟨_, dif_neg hs⟩
  | drw x y n => exact guardAccess_of_next _ _ _ _
  | ldVxMem x => exact guardAccess_of_next _ _ _ _
  | ldB x =>
    rw [exec, execLdB, guardLow_open (.inl hp)]
    exact guardAccess_of_next _ _ _ _
  | ldMemVx x =>
    rw [exec, execLdMemVx, guardLow_open (.inl hp)]
    exact guardAccess_of_next _ _ _ _
  | _ => exact ⟨_, rfl⟩

/-! What every step event keeps. -/

/-- No instruction touches the parameters or the environment's inputs, faulting or not. -/
theorem exec_keeps_environment {i : Instr} {s t : State} (h : exec i s = .next t) :
    t.config = s.config ∧ t.inputs = s.inputs ∧ t.clock = s.clock := by
  rcases exec_next_cases h with ⟨k, w, rfl⟩ | ⟨-, hk⟩
  · exact ⟨rfl, rfl, rfl⟩
  · exact hk

/-- The body of a step event keeps the parameters and the inputs, in each of its four cases. -/
theorem stepBody_keeps_environment {s t : State} (h : stepBody s = .next t) :
    t.config = s.config ∧ t.inputs = s.inputs ∧ t.clock = s.clock := by
  rcases stepBody_cases s with ⟨-, e⟩ | ⟨-, -, e⟩ | ⟨-, -, i, -, -, e⟩ | ⟨-, -, -, e⟩ <;> rw [e] at h
  case inr.inr.inl => exact exec_keeps_environment (s := s.advance) h
  all_goals injection h with h; subst h; exact ⟨rfl, rfl, rfl⟩

/-- A step event changes no parameter and uses up exactly one input. -/
theorem stepEvent_environment {s t : State} (h : stepEvent s = .next t) :
    t.config = s.config ∧ t.inputs = s.inputs.tail ∧ t.clock = s.clock + 1 := by
  obtain ⟨u, hu, rfl⟩ := mapNext_eq_next h
  obtain ⟨hc, hi, hn⟩ := stepBody_keeps_environment hu
  exact ⟨hc, congrArg List.tail hi, congrArg (· + 1) hn⟩

/-- With PROTECT_LOW off, every state has a next state under a step event, a faulted one too (R209, R210). -/
theorem stepEvent_next_of_unprotected {s : State} (hp : s.config.protectLow = false) : ∃ t, stepEvent s = .next t := by
  have hb : ∃ u, stepBody s = .next u := by
    rcases stepBody_cases s with ⟨-, e⟩ | ⟨-, -, e⟩ | ⟨-, -, i, -, -, e⟩ | ⟨-, -, -, e⟩
    case inr.inr.inl => rw [e]; exact exec_next_of_unprotected (s := s.advance) hp i
    all_goals exact ⟨_, e⟩
  obtain ⟨u, hu⟩ := hb
  exact ⟨u.nextInput, by rw [stepEvent, hu, mapNext_next]⟩

/-! Runs of events (spec/00_scope.md R5, R6). -/

/-- A run of one event is that event. -/
theorem runEvents_singleton (e : Event) (s : State) : runEvents [e] s = applyEvent e s := by
  rw [runEvents]
  cases applyEvent e s <;> rfl

/-- Tick events at the head of a run, one by one, are that many ticks at once. -/
theorem runEvents_ticks (n : Nat) (es : List Event) (s : State) :
    runEvents (List.replicate n .tick ++ es) s = runEvents es (s.ticks n) := by
  induction n generalizing s with
  | zero => rw [State.ticks_zero]; rfl
  | succ n ih =>
    calc runEvents (List.replicate (n + 1) .tick ++ es) s
        = runEvents (List.replicate n .tick ++ es) s.tick := rfl
      _ = runEvents es (s.tick.ticks n) := ih s.tick
      _ = runEvents es (s.ticks (n + 1)) := by rw [State.ticks_succ]

/-! The statements. -/

/-- Settles O32: inside memory the store is the run of bytes and the load is `loadBlock`, each followed by `moveI`, whose sum does not
wrap there. -/
theorem blockTransferMovesI : Obligations.BlockTransferMovesI := by
  intro s x hmove hmem
  constructor
  · intro hlow
    have hi := State.moveI_of_blockMovesI (s := s.writeBytes s.i.toNat (s.regBlock x)) hmove x
    refine ⟨_, (exec_ldMemVx_inside hmem).trans (guardLow_open hlow _), fun k hk => ?_, fun a ha => ?_, ?_, ?_⟩
    · rw [State.moveI_readByte, State.readByte_writeBlock_inside s _ hk]
    · rw [State.moveI_readByte, State.readByte_writeBlock_outside s ha]
    · rw [hi]; exact toNat_pastBlock hmem
    · rw [hi]; rfl
  · have hl := s.loadBlock_eq s.i.toNat (x.toNat + 1)
    have hi := State.moveI_of_blockMovesI (s := s.loadBlock s.i.toNat (x.toNat + 1)) (by rw [hl]; exact hmove) x
    refine ⟨_, exec_ldVxMem_inside hmem, fun k => ?_, ?_, ?_⟩
    · rw [State.moveI_reg, State.loadBlock_reg s _ _ (by omega) k]
      simp only [Nat.lt_succ_iff]
    · rw [hi, hl]; exact toNat_pastBlock hmem
    · rw [hi, hl]; rfl

/-- Settles O40, by induction on the number of ticks (`runEvents_ticks`). -/
theorem stepIsTicksThenStepEvent : Obligations.StepIsTicksThenStepEvent := by
  intro s
  rw [runEvents_ticks, runEvents_singleton]
  rfl

/-- Settles O47: after the ticks, the step event is total with PROTECT_LOW off and keeps the parameters. -/
theorem stepNeverStops : Obligations.StepNeverStops := by
  intro s hp
  obtain ⟨t, ht⟩ := stepEvent_next_of_unprotected (s := s.ticks s.input.ticks) hp
  obtain ⟨hc, -, -⟩ := stepEvent_environment ht
  exact ⟨t, ht, hc⟩

/-- Settles O24, by the answer of the key query. -/
theorem sknpIdleSkips : Obligations.SknpIdleSkips := by
  intro s x hidle
  cases hk : s.keyQuery with
  | none => rw [exec_sknp_of_noKey hk, if_pos hidle]; rfl
  | some k => exact exec_sknp_of_key hk x

/-- Settles O34: below 0x200 both stores lie in memory, so that only PROTECT_LOW's guard is left. -/
theorem protectLowRefusesStores : Obligations.ProtectLowRefusesStores := by
  intro s x hp hi
  constructor
  · rw [exec_ldB_inside (by omega), guardLow_refused hp hi]
  · rw [exec_ldMemVx_inside (by omega), guardLow_refused hp hi]

/-- Settles O41: a reset is alone in its list, and a tick and a step stand in it in this order. -/
theorem coincidentStrobes : Obligations.CoincidentStrobes := by
  intro s prog a b _
  exact ⟨runEvents_singleton _ s, runEvents_singleton .step s.tick⟩

/-- Settles O59: `nextInput` drops one input, and the body before it touches none, faulted or not. -/
theorem stepEventUsesOneInput : Obligations.StepEventUsesOneInput := by
  intro s t h
  obtain ⟨-, hinputs, hclock⟩ := stepEvent_environment h
  exact ⟨hinputs, hclock⟩

end Sys2Proof.Machine
end

section
/-! PROOFS. The statements about state (spec/10_state.md): what an instruction changes outside memory and the framebuffer, where it
leaves PC (R27, R28), that KEY decides nothing (R35), and what reset sets (R40). Each part states once what `exec` does to its fields;
the statements follow from these lemmas. -/

namespace Sys2Proof.Machine

/-! What an instruction does to I, the stack, the timers and KEY (R25, R29, R30, R35). -/

/-- The next states an instruction can answer, by what happens to I, the stack, the timers and KEY. -/
inductive Effect (s : State) : State → Instr → Prop where
  /-- None of them is touched; a fault is of this kind. -/
  | plain (i : Instr) (v : Vector Byte 16) (pc : Word) (fb : FrameBuffer) (mem : Memory) (fault : Option FaultRecord) :
      Effect s { s with v := v, pc := pc, fb := fb, mem := mem, fault := fault } i
  | push (nnn : Addr) (hs : s.sp.val < 16) : Effect s ((s.push s.pc hs).setPc (extendAddr nnn)) (.call nnn)
  | pop (hs : 0 < s.sp.val) : Effect s ((s.pop hs).2.setPc (s.pop hs).1) .ret
  | loadI (nnn : Addr) (w : Word) : Effect s (s.setI w) (.ldI nnn)
  | addToI (x : Reg) (w : Word) : Effect s (s.setI w) (.addI x)
  | glyphI (x : Reg) (w : Word) : Effect s (s.setI w) (.ldF x)
  | storeMovesI (x : Reg) (mem : Memory) (w : Word) (hm : s.config.blockMovesI = true) :
      Effect s { s with mem := mem, i := w } (.ldMemVx x)
  | loadMovesI (x : Reg) (v : Vector Byte 16) (w : Word) (hm : s.config.blockMovesI = true) :
      Effect s { s with v := v, i := w } (.ldVxMem x)
  | setDt (x : Reg) (b : Byte) : Effect s (s.setDt b) (.ldDtVx x)
  | setSt (x : Reg) (b : Byte) : Effect s (s.setSt b) (.ldStVx x)
  | input (i : Instr) (v : Vector Byte 16) (pc : Word) (q : Option Key) (hi : samples i = .key) :
      Effect s { s with v := v, pc := pc, key := q } i

/-- Raising a fault touches the latch only. -/
theorem Effect.raise (s : State) (k : FaultKind) (w : Word) (i : Instr) : Effect s (s.raise k w) i := .plain i _ _ _ _ _

/-- A skip touches PC only. -/
theorem Effect.of_skipIf {c : Bool} {s t : State} (h : skipIf c s = .next t) (i : Instr) : Effect s t i := by
  rcases skipIf_cases h with ⟨-, rfl⟩ | ⟨-, rfl⟩ <;> exact .plain i _ _ _ _ _

/-- The effect of a stored block: I moves under BLOCK_MOVES_I only (R181). -/
theorem Effect.of_storeBlock (s : State) (x : Reg) (l : List Byte) : Effect s ((s.writeBytes s.i.toNat l).moveI x) (.ldMemVx x) := by
  rcases (s.writeBytes s.i.toNat l).moveI_cases x with ⟨hm, e⟩ | ⟨-, e⟩ <;> rw [e]
  · exact .storeMovesI x _ _ hm
  · exact .plain _ _ _ _ _ _

/-- The effect of a loaded block (R182). -/
theorem Effect.of_loadBlock (s : State) (x : Reg) (n : Nat) : Effect s ((s.loadBlock s.i.toNat n).moveI x) (.ldVxMem x) := by
  rw [s.loadBlock_eq]
  rcases State.moveI_cases { s with v := (s.loadBlock s.i.toNat n).v } x with ⟨hm, e⟩ | ⟨-, e⟩ <;> rw [e]
  · exact .loadMovesI x _ _ hm
  · exact .plain _ _ _ _ _ _

/-- Every next state of every instruction is one of these effects. -/
theorem exec_effect {i : Instr} {s t : State} (h : exec i s = .next t) : Effect s t i := by
  cases i with
  | call nnn =>
    rcases execCall_cases h with ⟨hs, rfl⟩ | ⟨-, rfl⟩
    · exact .push nnn hs
    · exact .raise s _ _ _
  | ret =>
    rcases execRet_cases h with ⟨hs, rfl⟩ | ⟨-, rfl⟩
    · exact .pop hs
    · exact .raise s _ _ _
  | seImm x kk => exact .of_skipIf h _
  | sneImm x kk => exact .of_skipIf h _
  | seReg x y => exact .of_skipIf h _
  | sneReg x y => exact .of_skipIf h _
  | drw x y n =>
    rcases execDrw_cases h with ⟨p, rfl⟩ | rfl
    · exact .plain _ _ _ _ _ _
    · exact .raise s _ _ _
  | ldB x =>
    rcases execLdB_cases h with ⟨-, rfl⟩ | rfl
    · exact .plain _ _ _ _ _ _
    · exact .raise s _ _ _
  | ldMemVx x =>
    rcases execLdMemVx_cases h with ⟨-, rfl⟩ | rfl
    · exact .of_storeBlock s x _
    · exact .raise s _ _ _
  | ldVxMem x =>
    rcases execLdVxMem_cases h with ⟨-, rfl⟩ | rfl
    · exact .of_loadBlock s x _
    · exact .raise s _ _ _
  | skp x => rcases execSkp_cases h with ⟨-, rfl⟩ | ⟨k, -, -, rfl⟩ | ⟨k, -, -, rfl⟩ <;> exact .input _ _ _ _ rfl
  | sknp x =>
    rcases execSknp_cases h with ⟨-, -, rfl⟩ | ⟨-, -, rfl⟩ | ⟨k, -, -, rfl⟩ | ⟨k, -, -, rfl⟩ <;> exact .input _ _ _ _ rfl
  | ldVxK x => rcases execLdVxK_cases h with ⟨-, rfl⟩ | ⟨k, -, rfl⟩ <;> exact .input _ _ _ _ rfl
  | ldI nnn => injection h with h; subst h; exact .loadI nnn _
  | addI x => injection h with h; subst h; exact .addToI x _
  | ldF x => injection h with h; subst h; exact .glyphI x _
  | ldDtVx x => injection h with h; subst h; exact .setDt x _
  | ldStVx x => injection h with h; subst h; exact .setSt x _
  | _ => injection h with h; subst h; exact .plain _ _ _ _ _ _

/-- I changes only by the index writes, and by a block transfer under BLOCK_MOVES_I (R25). -/
theorem Effect.i_writers {i : Instr} {s t : State} (h : Effect s t i) (hne : t.i ≠ s.i) :
    (∃ nnn, i = .ldI nnn) ∨ (∃ x, i = .addI x) ∨ (∃ x, i = .ldF x)
      ∨ (s.config.blockMovesI = true ∧ ((∃ x, i = .ldMemVx x) ∨ ∃ x, i = .ldVxMem x)) := by
  cases h with
  | loadI nnn => exact .inl ⟨nnn, rfl⟩
  | addToI x => exact .inr (.inl ⟨x, rfl⟩)
  | glyphI x => exact .inr (.inr (.inl ⟨x, rfl⟩))
  | storeMovesI x _ _ hm => exact .inr (.inr (.inr ⟨hm, .inl ⟨x, rfl⟩⟩))
  | loadMovesI x _ _ hm => exact .inr (.inr (.inr ⟨hm, .inr ⟨x, rfl⟩⟩))
  | _ => exact absurd rfl hne

/-- The call stack after an instruction: as it was, or CALL's push, or RET's pop (R29). -/
theorem Effect.stack_cases {i : Instr} {s t : State} (h : Effect s t i) :
    (t.sp = s.sp ∧ t.stack = s.stack)
      ∨ ((∃ nnn, i = .call nnn) ∧ ∃ hs : s.sp.val < 16, t.sp.val = s.sp.val + 1 ∧ t.stack = s.stack.set s.sp.val s.pc hs)
      ∨ (i = .ret ∧ t.sp.val = s.sp.val - 1 ∧ t.stack = s.stack) := by
  cases h with
  | push nnn hs => exact .inr (.inl ⟨⟨nnn, rfl⟩, hs, rfl, rfl⟩)
  | pop hs => exact .inr (.inr ⟨rfl, rfl, rfl⟩)
  | _ => exact .inl ⟨rfl, rfl⟩

theorem Effect.dt_writers {i : Instr} {s t : State} (h : Effect s t i) (hne : t.dt ≠ s.dt) : ∃ x, i = .ldDtVx x := by
  cases h with
  | setDt x => exact ⟨x, rfl⟩
  | _ => exact absurd rfl hne

theorem Effect.st_writers {i : Instr} {s t : State} (h : Effect s t i) (hne : t.st ≠ s.st) : ∃ x, i = .ldStVx x := by
  cases h with
  | setSt x => exact ⟨x, rfl⟩
  | _ => exact absurd rfl hne

theorem Effect.key_writers {i : Instr} {s t : State} (h : Effect s t i) (hne : t.key ≠ s.key) : samples i = .key := by
  cases h with
  | input i _ _ _ hi => exact hi
  | _ => exact absurd rfl hne

/-! The general registers an instruction leaves (R21, R23). -/

/-- An instruction with a flag leaves every register but its destination and VF. -/
theorem State.reg_setResult_ne (s : State) {x k : Reg} (b : Byte) (f : Bool)
    (h : (decide (k = x) || decide (k = 0xF#4)) = false) : (s.setResult x b f).reg k = s.reg k := by
  obtain ⟨hx, hf⟩ : k ≠ x ∧ k ≠ 0xF#4 := by simpa using h
  rw [State.reg_setResult, if_neg hf, if_neg hx]

theorem skipIf_reg {c : Bool} {s t : State} (h : skipIf c s = .next t) (k : Reg) : t.reg k = s.reg k := by
  rcases skipIf_cases h with ⟨-, rfl⟩ | ⟨-, rfl⟩ <;> rfl

/-- A register the instruction may not write keeps its value. -/
theorem exec_reg_of_not_mayWrite {i : Instr} {s t : State} {k : Reg} (h : exec i s = .next t) (hw : mayWrite i k = false) :
    t.reg k = s.reg k := by
  cases i with
  | ldImm x _ | addImm x _ | ldReg x _ | orReg x _ | andReg x _ | xorReg x _ | rnd x _ | ldVxDt x =>
    injection h with h; subst h
    exact State.reg_setReg_ne s x _ (of_decide_eq_false hw)
  | addReg x _ | subReg x _ | shr x _ | subnReg x _ | shl x _ =>
    injection h with h; subst h
    exact State.reg_setResult_ne s _ _ hw
  | drw x y n =>
    rcases execDrw_cases h with ⟨p, rfl⟩ | rfl
    · exact State.reg_setReg_ne _ 0xF#4 _ (of_decide_eq_false hw)
    · rfl
  | ldVxK x =>
    rcases execLdVxK_cases h with ⟨-, rfl⟩ | ⟨q, -, rfl⟩
    · rfl
    · exact State.reg_setReg_ne _ x _ (of_decide_eq_false hw)
  | ldVxMem x =>
    rcases execLdVxMem_cases h with ⟨-, rfl⟩ | rfl
    · have hk : ¬ k.toNat ≤ x.toNat := of_decide_eq_false hw
      rw [State.moveI_reg, State.loadBlock_reg _ _ _ (by omega), if_neg (by omega)]
    · rfl
  | ldMemVx x =>
    rcases execLdMemVx_cases h with ⟨-, rfl⟩ | rfl
    · exact State.moveI_reg _ x k
    · rfl
  | seImm _ _ | sneImm _ _ | seReg _ _ | sneReg _ _ => exact skipIf_reg h k
  | call nnn => rcases execCall_cases h with ⟨hs, rfl⟩ | ⟨-, rfl⟩ <;> rfl
  | ret => rcases execRet_cases h with ⟨hs, rfl⟩ | ⟨-, rfl⟩ <;> rfl
  | skp x => rcases execSkp_cases h with ⟨-, rfl⟩ | ⟨q, -, -, rfl⟩ | ⟨q, -, -, rfl⟩ <;> rfl
  | sknp x => rcases execSknp_cases h with ⟨-, -, rfl⟩ | ⟨-, -, rfl⟩ | ⟨q, -, -, rfl⟩ | ⟨q, -, -, rfl⟩ <;> rfl
  | ldB x => rcases execLdB_cases h with ⟨-, rfl⟩ | rfl <;> rfl
  | cls | jp _ | jpV0 _ | ldI _ | addI _ | ldF _ | ldDtVx _ | ldStVx _ => injection h with h; subst h; rfl

/-! PC after an instruction (R27) and its bound (R28). -/

theorem skipIf_advance_pc {c : Bool} {s t : State} (h : skipIf c s.advance = .next t) :
    t.pc = if c then s.pc + 4#16 else s.pc + 2#16 := by
  rcases skipIf_cases h with ⟨rfl, rfl⟩ | ⟨rfl, rfl⟩
  · exact BitVec.add_assoc s.pc 2#16 2#16
  · rfl

@[simp] theorem State.moveI_pc (s : State) (x : Reg) : (s.moveI x).pc = s.pc := by
  rcases s.moveI_cases x with ⟨-, e⟩ | ⟨-, e⟩ <;> rw [e]
  rfl

@[simp] theorem State.loadBlock_pc (s : State) (a n : Nat) : (s.loadBlock a n).pc = s.pc := by
  rw [State.loadBlock_eq]

/-- The sum of JP V0,nnn, as R121 has it. -/
theorem jpV0_target (b : Byte) (nnn : Addr) : extendByte b + extendAddr nnn = BitVec.ofNat 16 (b.toNat + nnn.toNat) := by
  apply BitVec.eq_of_toNat_eq
  simp only [extendByte, extendAddr, BitVec.toNat_add, BitVec.toNat_setWidth, BitVec.toNat_ofNat]
  omega

@[simp] theorem State.advance_keyQuery (s : State) : s.advance.keyQuery = s.keyQuery := rfl

/-- A skip taken by a key instruction: two words past A. -/
theorem State.advance_setKey_keySkip_pc (s : State) (q : Option Key) : (s.advance.setKey q).keySkip.pc = s.pc + 4#16 :=
  BitVec.add_assoc s.pc 2#16 2#16

theorem execSkp_pc {x : Reg} {s t : State} (h : execSkp x s.advance = .next t) : t.pc = pcAfter (.skp x) s := by
  rcases execSkp_cases h with ⟨hq, rfl⟩ | ⟨k, hq, he, rfl⟩ | ⟨k, hq, he, rfl⟩ <;> rw [State.advance_keyQuery] at hq
  · simp [pcAfter, hq]
  · rw [State.advance_setKey_keySkip_pc]
    simp [pcAfter, hq, (extendKey_eq_iff _ _).1 he]
  · have hk : k.toNat ≠ (s.reg x).toNat := fun e => he ((extendKey_eq_iff _ _).2 e)
    simp [pcAfter, hq, hk]

theorem execSknp_pc {x : Reg} {s t : State} (h : execSknp x s.advance = .next t) : t.pc = pcAfter (.sknp x) s := by
  rcases execSknp_cases h with ⟨hq, hi, rfl⟩ | ⟨hq, hi, rfl⟩ | ⟨k, hq, he, rfl⟩ | ⟨k, hq, he, rfl⟩ <;>
    rw [State.advance_keyQuery] at hq
  · rw [State.advance_config] at hi
    simp [pcAfter, hq, hi]
  · rw [State.advance_config] at hi
    rw [State.keySkip_pc, State.advance_pc, BitVec.add_assoc]
    simp [pcAfter, hq, hi]
  · have hk : k.toNat ≠ (s.reg x).toNat := fun e => he ((extendKey_eq_iff _ _).2 e)
    rw [State.advance_setKey_keySkip_pc]
    simp [pcAfter, hq, hk]
  · simp [pcAfter, hq, (extendKey_eq_iff _ _).1 he]

/-- Without a key LD Vx,K leaves PC at A again (R163). -/
theorem execLdVxK_pc {x : Reg} {s t : State} (h : execLdVxK x s.advance = .next t) : t.pc = pcAfter (.ldVxK x) s := by
  rcases execLdVxK_cases h with ⟨hq, rfl⟩ | ⟨k, hq, rfl⟩ <;> rw [State.advance_keyQuery] at hq
  · rw [State.setPc_pc, State.advance_pc, BitVec.add_sub_cancel]
    simp [pcAfter, hq]
  · simp [pcAfter, hq]

/-- An instruction that raised no fault leaves PC at R27's value, A being where PC stood before the fetch. -/
theorem exec_pc_of_noFault {i : Instr} {s t : State} (h : exec i s.advance = .next t) (hf : t.fault = none) :
    t.pc = pcAfter i s := by
  cases i with
  | jpV0 nnn =>
    injection h with h; subst h
    exact jpV0_target _ _
  | call nnn =>
    rcases execCall_cases h with ⟨hs, rfl⟩ | ⟨-, rfl⟩
    · rfl
    · cases hf
  | ret =>
    rcases execRet_cases h with ⟨hs, rfl⟩ | ⟨-, rfl⟩
    · rw [pcAfter, dif_pos (show 0 < s.sp.val from hs)]; rfl
    · cases hf
  | seImm _ _ | sneImm _ _ | seReg _ _ | sneReg _ _ => exact skipIf_advance_pc h
  | skp x => exact execSkp_pc h
  | sknp x => exact execSknp_pc h
  | ldVxK x => exact execLdVxK_pc h
  | drw x y n =>
    rcases execDrw_cases h with ⟨p, rfl⟩ | rfl
    · rfl
    · cases hf
  | ldB x =>
    rcases execLdB_cases h with ⟨-, rfl⟩ | rfl
    · rfl
    · cases hf
  | ldMemVx x =>
    rcases execLdMemVx_cases h with ⟨-, rfl⟩ | rfl
    · exact State.moveI_pc _ x
    · cases hf
  | ldVxMem x =>
    rcases execLdVxMem_cases h with ⟨-, rfl⟩ | rfl
    · exact (State.moveI_pc _ x).trans (State.loadBlock_pc _ _ _)
    · cases hf
  | _ => injection h with h; subst h; rfl

/-- An instruction that raised a fault leaves PC where it found it: past the instruction (R72, R209). -/
theorem exec_pc_of_fault {i : Instr} {s t : State} (h : exec i s = .next t) (hs : s.fault = none) (hf : t.fault ≠ none) :
    t.pc = s.pc := by
  rcases exec_next_cases h with ⟨k, w, rfl⟩ | ⟨hk, -⟩
  · rfl
  · exact absurd (hk.trans hs) hf

theorem toNat_add_two {a : Word} (ha : a.toNat ≤ 0xFFE) : (a + 2#16).toNat = a.toNat + 2 := by
  rw [BitVec.toNat_add, BitVec.toNat_ofNat]
  omega

/-- PC past a word fetched from memory is within the bound of R28. -/
theorem toNat_add_two_le {a : Word} (ha : a.toNat ≤ 0xFFE) : (a + 2#16).toNat ≤ 0x10FE := by
  rw [toNat_add_two ha]
  omega

theorem toNat_skip_le {a : Word} (ha : a.toNat ≤ 0xFFE) (c : Bool) : (if c then a + 4#16 else a + 2#16).toNat ≤ 0x10FE := by
  cases c
  · exact toNat_add_two_le ha
  · rw [if_pos rfl, BitVec.toNat_add, BitVec.toNat_ofNat]
    omega

theorem toNat_jump_le (nnn : Addr) : (nnn.setWidth 16 : Word).toNat ≤ 0x10FE := by
  rw [BitVec.toNat_setWidth]
  omega

/-- The highest value that an instruction gives PC is JP V0,nnn's 0xFF + 0xFFF (R28, R121). -/
theorem pcAfter_le (i : Instr) {s : State} (hb : s.pcBounded) (ha : s.pc.toNat ≤ 0xFFE) : (pcAfter i s).toNat ≤ 0x10FE := by
  obtain ⟨-, hstack⟩ := hb
  cases i with
  | jp nnn | call nnn => exact toNat_jump_le nnn
  | jpV0 nnn =>
    rw [pcAfter, BitVec.toNat_ofNat]
    omega
  | ret =>
    rw [pcAfter]
    split
    · next h =>
      have := hstack ⟨s.sp.val - 1, by omega⟩ (Nat.sub_lt h Nat.one_pos)
      exact this.trans (by decide)
    · exact toNat_add_two_le ha
  | seImm _ _ | sneImm _ _ | seReg _ _ | sneReg _ _ | skp _ | sknp _ => exact toNat_skip_le ha _
  | ldVxK x =>
    rw [pcAfter]
    split
    · exact toNat_add_two_le ha
    · omega
  | _ => exact toNat_add_two_le ha

/-- The return addresses held after an instruction: those held before, or CALL's own, which is where PC stood (R28, R122). -/
theorem Effect.held_le {i : Instr} {s t : State} (h : Effect s t i) (hpc : s.pc.toNat ≤ 0x1000)
    (hstack : ∀ j : Fin 16, j.val < s.sp.val → s.stack[j].toNat ≤ 0x1000) (j : Fin 16) (hj : j.val < t.sp.val) :
    t.stack[j].toNat ≤ 0x1000 := by
  rcases h.stack_cases with ⟨hsp, hst⟩ | ⟨-, hs, hsp, hst⟩ | ⟨-, hsp, hst⟩
  · rw [hst]
    exact hstack j (hsp ▸ hj)
  · rw [hst, Fin.getElem_fin, Vector.getElem_set]
    split
    · exact hpc
    · exact hstack j (by omega)
  · rw [hst]
    exact hstack j (by omega)

/-- An instruction fetched from memory keeps the bounds of R28. -/
theorem exec_keeps_pcBounded {i : Instr} {s t : State} (hb : s.pcBounded) (ha : s.pc.toNat ≤ 0xFFE) (hs : s.fault = none)
    (h : exec i s.advance = .next t) : t.pcBounded := by
  constructor
  · by_cases hf : t.fault = none
    · rw [exec_pc_of_noFault h hf]
      exact pcAfter_le i hb ha
    · rw [exec_pc_of_fault h hs hf]
      exact toNat_add_two_le ha
  · have hpc : s.advance.pc.toNat ≤ 0x1000 := by
      rw [State.advance_pc, toNat_add_two ha]
      omega
    exact (exec_effect h).held_le hpc hb.2

/-- The body of a step event keeps the bounds of R28, in each of its four cases. -/
theorem stepBody_keeps_pcBounded {s t : State} (hb : s.pcBounded) (h : stepBody s = .next t) : t.pcBounded := by
  rcases stepBody_cases s with ⟨-, e⟩ | ⟨-, -, e⟩ | ⟨hs, ha, i, -, -, e⟩ | ⟨-, ha, -, e⟩ <;> rw [e] at h
  · injection h with h; subst h; exact hb
  · injection h with h; subst h; exact hb
  · exact exec_keeps_pcBounded hb ha hs h
  · injection h with h; subst h; exact ⟨toNat_add_two_le ha, hb.2⟩

/-- A step event that executes `i` is `exec` past the word. -/
theorem stepBody_of_executes {s : State} {i : Instr} (h : s.executes i) : stepBody s = exec i s.advance := by
  obtain ⟨hs, ha, hd, hw⟩ := h
  simp [stepBody, hs, State.fetchInMemory, ha, dispatchWord, hd, hw]

/-- A step event on a running core that ends faulted after a fetch from memory leaves PC past the word (R72, R209). -/
theorem stepBody_pc_of_fault {s t : State} (h : stepBody s = .next t) (hs : s.fault = none) (ha : s.pc.toNat ≤ 0xFFE)
    (hf : t.fault ≠ none) : t.pc = s.pc + 2#16 := by
  rcases stepBody_cases s with ⟨hn, -⟩ | ⟨-, hn, -⟩ | ⟨-, -, i, -, -, e⟩ | ⟨-, -, -, e⟩
  · exact absurd hs hn
  · omega
  · exact exec_pc_of_fault (s := s.advance) (e.symm.trans h) hs hf
  · rw [e] at h; injection h with h; subst h; rfl

/-- A step event that fetches nothing, faulted or with PC outside memory, leaves PC (R53, R210). -/
theorem stepBody_pc_of_noFetch {s t : State} (h : stepBody s = .next t) (hn : s.fault ≠ none ∨ s.pc.toNat > 0xFFE) :
    t.pc = s.pc := by
  rcases stepBody_cases s with ⟨-, e⟩ | ⟨-, -, e⟩ | ⟨hs, ha, -⟩ | ⟨hs, ha, -⟩
  · rw [e] at h; injection h with h; subst h; rfl
  · rw [e] at h; injection h with h; subst h; rfl
  all_goals
    rcases hn with hn | hn
    · exact absurd hs hn
    · omega

/-! The instructions with a choice, by what decides it (R122, R123, R161, R163). -/

theorem exec_call_of_room {s : State} {nnn : Addr} (hs : s.sp.val < 16) :
    exec (.call nnn) s = .next ((s.push s.pc hs).setPc (extendAddr nnn)) := dif_pos hs

theorem exec_call_of_full {s : State} {nnn : Addr} (hs : ¬ s.sp.val < 16) :
    exec (.call nnn) s = .next (s.raise .stackOverflow (extendAddr nnn)) := dif_neg hs

theorem exec_ret_of_held {s : State} (hs : 0 < s.sp.val) : exec .ret s = .next ((s.pop hs).2.setPc (s.pop hs).1) := dif_pos hs

theorem exec_ret_of_empty {s : State} (hs : ¬ 0 < s.sp.val) : exec .ret s = .next (s.raise .stackUnderflow 0x0000#16) := dif_neg hs

theorem exec_skp_of_noKey {s : State} (h : s.keyQuery = none) (x : Reg) : exec (.skp x) s = .next s := by
  simp only [exec, execSkp, h]

theorem exec_skp_of_key {s : State} {k : Key} (h : s.keyQuery = some k) (x : Reg) :
    exec (.skp x) s = .next (if extendKey k = s.reg x then (s.setKey (some k)).keySkip else s.setKey (some k)) := by
  simp only [exec, execSkp, h, State.recordKey]

theorem exec_ldVxK_of_noKey {s : State} (h : s.keyQuery = none) (x : Reg) :
    exec (.ldVxK x) s = .next (s.setPc (s.pc - 2#16)) := by
  simp only [exec, execLdVxK, h]

theorem exec_ldVxK_of_key {s : State} {k : Key} (h : s.keyQuery = some k) (x : Reg) :
    exec (.ldVxK x) s = .next ((s.setKey (some k)).setReg x (extendKey k)) := by
  simp only [exec, execLdVxK, h, State.recordKey]

/-! KEY decides nothing (R35): with another KEY every operation answers the same, but for KEY. -/

@[simp] theorem State.setKey_keyQuery (s : State) (q : Option Key) : (s.setKey q).keyQuery = s.keyQuery := rfl

theorem guardAccess_setKey (base : Word) (len : Nat) (s : State) (q : Option Key) (body : Host.Outcome State Fault Refusal) :
    guardAccess base len (s.setKey q) (mapNext (·.setKey q) body) = mapNext (·.setKey q) (guardAccess base len s body) := by
  unfold guardAccess
  split <;> rfl

theorem guardLow_setKey (base : Word) (s : State) (q : Option Key) (body : Host.Outcome State Fault Refusal) :
    guardLow base (s.setKey q) (mapNext (·.setKey q) body) = mapNext (·.setKey q) (guardLow base s body) := by
  unfold guardLow
  rw [State.setKey_config]
  split <;> rfl

theorem skipIf_setKey (c : Bool) (s : State) (q : Option Key) : skipIf c (s.setKey q) = mapNext (·.setKey q) (skipIf c s) := by
  cases c <;> rfl

theorem State.moveI_setKey (s : State) (x : Reg) (q : Option Key) : (s.setKey q).moveI x = (s.moveI x).setKey q := by
  unfold State.moveI
  rw [State.setKey_config]
  split <;> rfl

theorem State.loadBlock_setKey (s : State) (a n : Nat) (q : Option Key) :
    (s.setKey q).loadBlock a n = (s.loadBlock a n).setKey q := by
  induction n with
  | zero => rfl
  | succ n ih => rw [State.loadBlock, ih]; rfl

/-- An answer that overwrites KEY does not depend on it: the same next state is the one with its own KEY set. -/
theorem next_setKey (t : State) : ∃ r, .next t = mapNext (·.setKey r) (.next t) := ⟨t.key, rfl⟩

/-- An instruction from a state with another KEY answers the same next state or refusal, but for KEY, which is kept or written without
looking at it. -/
theorem exec_setKey (i : Instr) (s : State) (q : Option Key) : ∃ r, exec i (s.setKey q) = mapNext (·.setKey r) (exec i s) := by
  cases i with
  | call nnn =>
    refine ⟨q, ?_⟩
    by_cases hs : s.sp.val < 16
    · rw [exec_call_of_room hs, exec_call_of_room (s := s.setKey q) hs]; rfl
    · rw [exec_call_of_full hs, exec_call_of_full (s := s.setKey q) hs]; rfl
  | ret =>
    refine ⟨q, ?_⟩
    by_cases hs : 0 < s.sp.val
    · rw [exec_ret_of_held hs, exec_ret_of_held (s := s.setKey q) hs]; rfl
    · rw [exec_ret_of_empty hs, exec_ret_of_empty (s := s.setKey q) hs]; rfl
  | seImm _ _ | sneImm _ _ | seReg _ _ | sneReg _ _ => exact ⟨q, skipIf_setKey _ s q⟩
  | drw x y n =>
    refine ⟨q, ?_⟩
    rw [exec, exec, execDrw, execDrw, ← guardAccess_setKey]
    rfl
  | ldB x =>
    refine ⟨q, ?_⟩
    rw [exec, exec, execLdB, execLdB, ← guardAccess_setKey, ← guardLow_setKey]
    rfl
  | ldMemVx x =>
    refine ⟨q, ?_⟩
    rw [exec, exec, execLdMemVx, execLdMemVx, ← guardAccess_setKey, ← guardLow_setKey, mapNext_next, ← State.moveI_setKey]
    rfl
  | ldVxMem x =>
    refine ⟨q, ?_⟩
    rw [exec, exec, execLdVxMem, execLdVxMem, ← guardAccess_setKey, mapNext_next, ← State.moveI_setKey, ← State.loadBlock_setKey]
    rfl
  | skp x =>
    cases hq : s.keyQuery with
    | none => exact ⟨q, by rw [exec_skp_of_noKey hq, exec_skp_of_noKey (s := s.setKey q) hq]; rfl⟩
    | some k =>
      rw [exec_skp_of_key hq, exec_skp_of_key (s := s.setKey q) hq]
      exact next_setKey _
  | sknp x =>
    cases hq : s.keyQuery with
    | none =>
      rw [exec_sknp_of_noKey hq, exec_sknp_of_noKey (s := s.setKey q) hq, State.setKey_config]
      cases s.config.sknpIdleSkips
      · exact ⟨q, rfl⟩
      · exact ⟨none, rfl⟩
    | some k =>
      rw [exec_sknp_of_key hq, exec_sknp_of_key (s := s.setKey q) hq]
      exact next_setKey _
  | ldVxK x =>
    cases hq : s.keyQuery with
    | none => exact ⟨q, by rw [exec_ldVxK_of_noKey hq, exec_ldVxK_of_noKey (s := s.setKey q) hq]; rfl⟩
    | some k =>
      rw [exec_ldVxK_of_key hq, exec_ldVxK_of_key (s := s.setKey q) hq]
      exact next_setKey _
  | _ => exact ⟨q, rfl⟩

theorem dispatchWord_setKey (w : Word) (s : State) (q : Option Key) :
    ∃ r, dispatchWord w (s.setKey q) = mapNext (·.setKey r) (dispatchWord w s) := by
  unfold dispatchWord
  split
  · rw [State.setKey_config]
    split
    · exact exec_setKey _ s q
    · exact ⟨q, rfl⟩
  · exact ⟨q, rfl⟩

theorem stepBody_setKey (s : State) (q : Option Key) : ∃ r, stepBody (s.setKey q) = mapNext (·.setKey r) (stepBody s) := by
  have hb : stepBody (s.setKey q) = if s.fault.isSome then .next (s.setKey q)
      else if s.fetchInMemory then dispatchWord s.fetchWord (s.advance.setKey q)
      else .next ((s.raise .addressFault s.pc).setKey q) := rfl
  rw [hb, stepBody]
  split
  · exact ⟨q, rfl⟩
  · split
    · exact dispatchWord_setKey _ s.advance q
    · exact ⟨q, rfl⟩

theorem stepEvent_setKey (s : State) (q : Option Key) : ∃ r, stepEvent (s.setKey q) = mapNext (·.setKey r) (stepEvent s) := by
  obtain ⟨r, hr⟩ := stepBody_setKey s q
  refine ⟨r, ?_⟩
  rw [stepEvent, stepEvent, hr]
  cases stepBody s <;> rfl

/-! Memory after reset (R40). -/

theorem fontByte_of_ge (f : Font) {a : Nat} (h : 80 ≤ a) : fontByte f a = 0x00#8 := dif_neg (by omega)

/-- The byte of an image address is the image's. -/
theorem resetMemory_read_image (f : Font) (prog : List Byte) (k : Fin prog.length) :
    Memory.read (resetMemory f prog) (0x200 + k.val) = prog[k] := by
  rw [resetMemory, Memory.read_writeBytes, dif_pos (by simp only [programBase]; omega)]
  simp [programBase]

/-- Outside the image lies the font, and zero past its 80 bytes. -/
theorem resetMemory_read_outside (f : Font) (prog : List Byte) {a : Nat} (h : a < 0x200 ∨ 0x200 + prog.length ≤ a) :
    Memory.read (resetMemory f prog) a = fontByte f a := by
  rw [resetMemory, Memory.read_writeBytes, dif_neg (by simp only [programBase]; omega), Memory.read_writeBytes]
  by_cases ha : a < 80
  · simp [ha]
  · rw [dif_neg (by simp [ha]), Memory.read_nil, Memory.unlisted, fontByte_of_ge _ (by omega), fontByte_of_ge _ (by omega)]

/-! The statements. -/

/-- Settles O58: the ticks touch neither PC nor the stack, and the body of the step event keeps the bounds. -/
theorem stepKeepsPcBounded : Obligations.StepKeepsPcBounded := by
  intro s t hb h
  obtain ⟨u, hu, rfl⟩ := mapNext_eq_next h
  exact stepBody_keeps_pcBounded (s := s.ticks s.input.ticks) (t := u) hb hu

/-- Settles O42: an executed instruction is `exec` past the word, and the other three clauses are the cases of the step's body. -/
theorem pcAfterStep : Obligations.PcAfterStep := by
  intro s t h
  obtain ⟨u, hu, rfl⟩ := mapNext_eq_next h
  refine ⟨fun i hi hf => ?_, stepBody_pc_of_fault (t := u) hu, fun _ ha => ?_, fun hs => ?_⟩
  · exact exec_pc_of_noFault (t := u) ((stepBody_of_executes hi).symm.trans hu) hf
  · exact stepBody_pc_of_noFetch (t := u) hu (.inr ha)
  · exact stepBody_pc_of_noFetch (t := u) hu (.inl hs)

/-- Settles O48: a register outside `mayWrite` keeps its value. -/
theorem registerWriters : Obligations.RegisterWriters := by
  intro i s t k h hne
  by_contra hw
  exact hne (exec_reg_of_not_mayWrite h (Bool.eq_false_iff.2 hw))

/-- Settles O49, field by field from the instruction's effect. -/
theorem indexStackTimerKeyWriters : Obligations.IndexStackTimerKeyWriters := by
  intro i s t h
  have he := exec_effect h
  refine ⟨he.i_writers, fun hne => ?_, fun hne => ?_, he.dt_writers, he.st_writers, he.key_writers⟩
  · rcases he.stack_cases with ⟨hsp, -⟩ | ⟨hc, -⟩ | ⟨hr, -⟩
    · exact absurd hsp hne
    · exact .inr hc
    · exact .inl hr
  · rcases he.stack_cases with ⟨-, hst⟩ | ⟨hc, -⟩ | ⟨-, -, hst⟩
    · exact absurd hst hne
    · exact hc
    · exact absurd hst hne

/-- Settles O52: the ticks do not look at KEY, and the step event commutes with setting it. -/
theorem keyDecidesNothing : Obligations.KeyDecidesNothing := by
  intro s t q h
  obtain ⟨r, hr⟩ := stepEvent_setKey (s.ticks s.input.ticks) q
  have hstep : stepEvent (s.ticks s.input.ticks) = .next t := h
  rw [hstep] at hr
  exact ⟨t.setKey r, hr, rfl⟩

/-- Settles O54: the fields are `State.reset`'s by definition, and memory is read by `resetMemory_read_image` and
`resetMemory_read_outside`. -/
theorem resetSetsEveryItem : Obligations.ResetSetsEveryItem := by
  intro s prog hfit
  refine ⟨s.load prog, if_pos (decide_eq_true hfit), rfl, rfl, fun j => ?_, rfl, rfl, FrameBuffer.pixel_clear, fun k => ?_, rfl, rfl, rfl,
    fun a ha => ?_, fun a hlo hhi => ?_, resetMemory_read_image _ prog, fun a hlo _ => ?_⟩
  · exact Vector.getElem_replicate j.isLt
  · exact Vector.getElem_replicate k.isLt
  · exact resetMemory_read_outside _ prog (.inl (by omega))
  · exact (resetMemory_read_outside _ prog (.inl hhi)).trans (fontByte_of_ge _ hlo)
  · exact (resetMemory_read_outside _ prog (.inr hlo)).trans (fontByte_of_ge _ (by omega))

/-- Settles O56: memory lists nothing, PC is 0x200 and no return address is held. -/
theorem resetMeetsInvariants : Obligations.ResetMeetsInvariants :=
  ⟨State.reset_mem_wf, by decide, fun _ hj => absurd hj (Nat.not_lt_zero _)⟩

end Sys2Proof.Machine
end

section
/-! PROOFS. The statements about memory (spec/20_memory.md): what an instruction leaves in memory (R50, R52), that it stays canonical,
that the next fetch sees a store (R62), and the range check before every access (R53). Memory after an instruction is said once, in
`exec_mem_cases`. -/

namespace Sys2Proof.Machine

/-! What an instruction does to memory (R50, R52). -/

@[simp] theorem State.loadBlock_mem (s : State) (a n : Nat) : (s.loadBlock a n).mem = s.mem := by
  rw [State.loadBlock_eq]

@[simp] theorem State.moveI_mem (s : State) (x : Reg) : (s.moveI x).mem = s.mem := by
  rcases s.moveI_cases x with ⟨-, e⟩ | ⟨-, e⟩ <;> rw [e]
  rfl

/-- A run of bytes that an instruction stores from I on, by the instruction that stores it (spec/45_index_memory.md R180, R181). -/
inductive Stores (s : State) : Instr → List Byte → Prop where
  | digits (x : Reg) : Stores s (.ldB x) (decimalDigits (s.reg x))
  | block (x : Reg) : Stores s (.ldMemVx x) (s.regBlock x)

/-- Memory after an instruction: as it was, or with the instruction's bytes stored at I, all of them inside memory (R50, R53). -/
theorem exec_mem_cases {i : Instr} {s t : State} (h : exec i s = .next t) :
    t.mem = s.mem
      ∨ ∃ l, Stores s i l ∧ s.i.toNat + l.length ≤ memorySize ∧ t.mem = Memory.writeBytes s.mem s.i.toNat l := by
  cases i with
  | ldB x =>
    rcases execLdB_cases h with ⟨hr, rfl⟩ | rfl
    · exact .inr ⟨_, .digits x, hr, rfl⟩
    · exact .inl rfl
  | ldMemVx x =>
    rcases execLdMemVx_cases h with ⟨hr, rfl⟩ | rfl
    · exact .inr ⟨_, .block x, by rw [State.regBlock_length]; exact hr, State.moveI_mem _ x⟩
    · exact .inl rfl
  | ldVxMem x =>
    rcases execLdVxMem_cases h with ⟨-, rfl⟩ | rfl
    · exact .inl (by rw [State.moveI_mem, State.loadBlock_mem])
    · exact .inl rfl
  | seImm _ _ | sneImm _ _ | seReg _ _ | sneReg _ _ => rcases skipIf_cases h with ⟨-, rfl⟩ | ⟨-, rfl⟩ <;> exact .inl rfl
  | call nnn => rcases execCall_cases h with ⟨hs, rfl⟩ | ⟨-, rfl⟩ <;> exact .inl rfl
  | ret => rcases execRet_cases h with ⟨hs, rfl⟩ | ⟨-, rfl⟩ <;> exact .inl rfl
  | drw x y n => rcases execDrw_cases h with ⟨p, rfl⟩ | rfl <;> exact .inl rfl
  | skp x => rcases execSkp_cases h with ⟨-, rfl⟩ | ⟨q, -, -, rfl⟩ | ⟨q, -, -, rfl⟩ <;> exact .inl rfl
  | sknp x =>
    rcases execSknp_cases h with ⟨-, -, rfl⟩ | ⟨-, -, rfl⟩ | ⟨q, -, -, rfl⟩ | ⟨q, -, -, rfl⟩ <;> exact .inl rfl
  | ldVxK x => rcases execLdVxK_cases h with ⟨-, rfl⟩ | ⟨q, -, rfl⟩ <;> exact .inl rfl
  | _ => injection h with h; subst h; exact .inl rfl

/-- A byte that a run of stores changes lies inside the run (R52). -/
theorem Memory.inside_of_read_ne {m : Memory} {a c : Nat} {l : List Byte}
    (h : Memory.read (Memory.writeBytes m a l) c ≠ Memory.read m c) : a ≤ c ∧ c < a + l.length := by
  by_contra hout
  exact h (by rw [Memory.read_writeBytes, dif_neg hout])

/-- Every instruction keeps memory canonical: what it stores lies inside memory. -/
theorem exec_keeps_memoryCanonical {i : Instr} {s t : State} (hm : s.memoryCanonical = true) (h : exec i s = .next t) :
    t.memoryCanonical = true := by
  rw [State.memoryCanonical]
  rcases exec_mem_cases h with e | ⟨l, -, hr, e⟩ <;> rw [e]
  · exact hm
  · exact Memory.wf_writeBytes l s.mem _ hm hr

/-- The body of a step event keeps memory canonical, in each of its four cases. -/
theorem stepBody_keeps_memoryCanonical {s t : State} (hm : s.memoryCanonical = true) (h : stepBody s = .next t) :
    t.memoryCanonical = true := by
  rcases stepBody_cases s with ⟨-, e⟩ | ⟨-, -, e⟩ | ⟨-, -, i, -, -, e⟩ | ⟨-, -, -, e⟩ <;> rw [e] at h
  case inr.inr.inl => exact exec_keeps_memoryCanonical (s := s.advance) hm h
  all_goals injection h with h; subst h; exact hm

/-! A fetch after a store (R62, R71). -/

/-- A block of at least two registers stored at PC is fetched as V0 and V1, V0 the high byte. -/
theorem State.fetchWord_writeBlock (s : State) {x : Reg} (hx : 1 ≤ x.toNat) :
    (s.writeBytes s.pc.toNat (s.regBlock x)).fetchWord = wordOfBytes (s.reg 0x0#4) (s.reg 0x1#4) :=
  congrArg₂ wordOfBytes (s.readByte_writeBlock_inside s.pc.toNat (k := 0x0#4) (Nat.zero_le _))
    (s.readByte_writeBlock_inside s.pc.toNat (k := 0x1#4) hx)

@[simp] theorem State.moveI_fetchWord (s : State) (x : Reg) : (s.moveI x).fetchWord = s.fetchWord := by
  simp only [State.fetchWord, State.moveI_pc, State.moveI_readByte]

/-! An access outside memory (R53, R204). -/

/-- A fetch past 0xFFE raises AddressFault(PC), PC staying. -/
theorem stepBody_of_fetchOutside {s : State} (hs : s.fault = none) (ha : s.pc.toNat > 0xFFE) :
    stepBody s = .next (s.raise .addressFault s.pc) := by
  rcases stepBody_cases s with ⟨hn, -⟩ | ⟨-, -, e⟩ | ⟨-, hp, -⟩ | ⟨-, hp, -⟩
  · exact absurd hs hn
  · exact e
  all_goals omega

/-- A sprite of no row, or with its rows inside memory, is drawn (R53, spec/42_display.md R141). -/
theorem exec_drw_inside {s : State} {x y : Reg} {n : Nibble} (h : n.toNat = 0 ∨ s.i.toNat + n.toNat ≤ 4096) :
    ∃ p : Canvas, exec (.drw x y n) s = .next ((s.setFb p.1).setFlag p.2) :=
  ⟨drawRows (s.reg x).toNat (s.reg y).toNat (s.readBytes s.i.toNat n.toNat) (s.fb, false), guardAccess_inside h s _⟩

/-! The statements. -/

/-- Settles O57: the ticks leave memory, and the body of the step event keeps it canonical. -/
theorem stepKeepsMemoryCanonical : Obligations.StepKeepsMemoryCanonical := by
  intro s t hm h
  obtain ⟨u, hu, rfl⟩ := mapNext_eq_next h
  exact stepBody_keeps_memoryCanonical (s := s.ticks s.input.ticks) (t := u) hm hu

/-- Settles O38: inside memory the block store is performed, and the word at PC is then V0 and V1. -/
theorem storeIsSeenByNextFetch : Obligations.StoreIsSeenByNextFetch := by
  intro s x hlow hx hpc hmem
  refine ⟨_, (exec_ldMemVx_inside hmem).trans (guardLow_open hlow _), State.moveI_pc _ x, ?_⟩
  rw [State.moveI_fetchWord, hpc, State.fetchWord_writeBlock s hx, wordOfBytes_toNat]

/-- Settles O50: an instruction that changes memory stores a run of bytes at I, and a changed byte lies inside the run. -/
theorem memoryWriters : Obligations.MemoryWriters := by
  intro i s t a h hne
  rcases exec_mem_cases h with e | ⟨l, hl, -, e⟩ <;> rw [State.readByte, State.readByte, e] at hne
  · exact absurd rfl hne
  · obtain ⟨hlo, hhi⟩ := Memory.inside_of_read_ne hne
    cases hl with
    | digits x => exact .inl ⟨x, rfl, hlo, Nat.le_of_lt_succ hhi⟩
    | block x =>
      rw [State.regBlock_length] at hhi
      exact .inr ⟨x, rfl, hlo, Nat.le_of_lt_succ hhi⟩

/-- Settles O35: each range leaves memory, so that the fetch or the access's guard raises the fault; a range of no byte never does. -/
theorem accessesOutsideMemoryFault : Obligations.AccessesOutsideMemoryFault := by
  intro s
  refine ⟨fun hs ha => ?_, fun x y n hn hi => ?_, fun x hi => ?_, fun x hi => ⟨?_, ?_⟩, fun x y => ?_⟩
  · exact ⟨_, congrArg (mapNext State.nextInput) (stepBody_of_fetchOutside hs ha), rfl⟩
  · exact guardAccess_outside (by omega) _ _
  · exact guardAccess_outside (by omega) _ _
  · exact guardAccess_outside (by rw [blockLength]; omega) _ _
  · exact guardAccess_outside (by rw [blockLength]; omega) _ _
  · obtain ⟨p, hp⟩ := exec_drw_inside (s := s) (x := x) (y := y) (n := 0x0#4) (.inl rfl)
    exact ⟨_, hp, rfl⟩

end Sys2Proof.Machine
end

section
/-! PROOFS. The statements about the encoding (spec/30_encoding.md): decoder and encoder are inverse to each other (R73 to R76), the
illegal words are R77's, the opcode rows decide what decodes (R75, R79), and what a step event fetches and runs (R70 to R72). What the
decoder answers is said once, in `decodeWord_decodes`: a word is the encoding of the instruction answered, or lies in the row of R77's
table that its refusal names. -/

namespace Sys2Proof

/-! What the decoder answers (R76, R77). -/

/-- The words of one row of R77's table, by the fields of R73; no word is too short. -/
def Illegal (w : Word) : DecodeError → Prop
  | .truncated => False
  | .class0 => fieldC w = 0x0#4 ∧ w ≠ 0x00E0#16 ∧ w ≠ 0x00EE#16
  | .class5 => fieldC w = 0x5#4 ∧ fieldD w ≠ 0x0#4
  | .class8 => fieldC w = 0x8#4 ∧ fieldD w ∉ [0x0#4, 0x1#4, 0x2#4, 0x3#4, 0x4#4, 0x5#4, 0x6#4, 0x7#4, 0xE#4]
  | .class9 => fieldC w = 0x9#4 ∧ fieldD w ≠ 0x0#4
  | .classE => fieldC w = 0xE#4 ∧ fieldKk w ∉ [0x9E#8, 0xA1#8]
  | .classF => fieldC w = 0xF#4 ∧ fieldKk w ∉ [0x07#8, 0x0A#8, 0x15#8, 0x18#8, 0x1E#8, 0x29#8, 0x33#8, 0x55#8, 0x65#8]

/-- What the decoder may answer for a word: an instruction whose encoding the word is, or a refusal whose row the word lies in. -/
inductive Decodes (w : Word) : Except DecodeError Instr → Prop where
  | instr (i : Instr) (h : w = encode i) : Decodes w (.ok i)
  | refusal (e : DecodeError) (h : Illegal w e) : Decodes w (.error e)

/-! A word with its discriminating fields known is the format with these digits fixed (R74). -/

theorem eq_encodeNnn {w : Word} {c : BitVec 4} (hc : fieldC w = c) : w = encodeNnn c (fieldNnn w) := by
  subst hc; exact word_eq_encodeNnn w

theorem eq_encodeXkk {w : Word} {c : BitVec 4} {kk : Byte} (hc : fieldC w = c) (hkk : fieldKk w = kk) :
    w = encodeXkk c (fieldX w) kk := by
  subst hc hkk; exact word_eq_encodeXkk w

theorem eq_encodeXyn {w : Word} {c : BitVec 4} {d : Nibble} (hc : fieldC w = c) (hd : fieldD w = d) :
    w = encodeXyn c (fieldX w) (fieldY w) d := by
  subst hc hd; exact word_eq_encodeXyn w

theorem decodeClass8_decodes {w : Word} (hc : fieldC w = 0x8#4) :
    Decodes w (decodeClass8 (fieldX w) (fieldY w) (fieldD w)) := by
  unfold decodeClass8
  split
  case h_10 =>
    refine .refusal .class8 ⟨hc, ?_⟩
    simp only [List.mem_cons, List.not_mem_nil, or_false, not_or]
    and_intros <;> assumption
  all_goals next hd => exact .instr _ (eq_encodeXyn hc hd)

theorem decodeClassF_decodes {w : Word} (hc : fieldC w = 0xF#4) : Decodes w (decodeClassF (fieldX w) (fieldKk w)) := by
  unfold decodeClassF
  split
  case h_10 =>
    refine .refusal .classF ⟨hc, ?_⟩
    simp only [List.mem_cons, List.not_mem_nil, or_false, not_or]
    and_intros <;> assumption
  all_goals next hkk => exact .instr _ (eq_encodeXkk hc hkk)

/-- Every word is the encoding of the instruction it decodes to, or lies in the row of R77's table that its refusal names. The cases are
the sixteen classes. -/
theorem decodeWord_decodes (w : Word) : Decodes w (decodeWord w) := by
  unfold decodeWord
  split
  -- class 0: two words, each fixed whole
  case h_1 hc =>
    split
    · next hcls => exact .instr _ hcls
    · next hcls =>
      split
      · next hret => exact .instr _ hret
      · next hret => exact .refusal .class0 ⟨hc, hcls, hret⟩
  -- classes 1, 2, A and B: format NNN; classes 3, 4, 6, 7 and C: format XKK; class D: format XYN
  case h_2 hc | h_3 hc | h_11 hc | h_12 hc => exact .instr _ (eq_encodeNnn hc)
  case h_4 hc | h_5 hc | h_7 hc | h_8 hc | h_13 hc => exact .instr _ (eq_encodeXkk hc rfl)
  case h_14 hc => exact .instr _ (eq_encodeXyn hc rfl)
  -- classes 5 and 9: the low nibble decides, and so it does in class 8
  case h_6 hc =>
    split
    · next hd => exact .instr _ (eq_encodeXyn hc hd)
    · next hd => exact .refusal .class5 ⟨hc, hd⟩
  case h_10 hc =>
    split
    · next hd => exact .instr _ (eq_encodeXyn hc hd)
    · next hd => exact .refusal .class9 ⟨hc, hd⟩
  case h_9 hc => exact decodeClass8_decodes hc
  -- class E: the low byte decides, and so it does in class F, the one class left
  case h_15 hc =>
    split
    · next hskp => exact .instr _ (eq_encodeXkk hc hskp)
    · next hskp =>
      split
      · next hsknp => exact .instr _ (eq_encodeXkk hc hsknp)
      · next hsknp => exact .refusal .classE ⟨hc, by simp [hskp, hsknp]⟩
  case h_16 =>
    have hc : fieldC w = 0xF#4 := by
      simp only [imp_false] at *
      bv_omega
    exact decodeClassF_decodes hc

theorem eq_encode_of_decodeWord {w : Word} {i : Instr} (h : decodeWord w = .ok i) : w = encode i := by
  have hd := decodeWord_decodes w
  rw [h] at hd
  cases hd with
  | instr _ hw => exact hw

theorem illegal_of_decodeWord {w : Word} {e : DecodeError} (h : decodeWord w = .error e) : Illegal w e := by
  have hd := decodeWord_decodes w
  rw [h] at hd
  cases hd with
  | refusal _ he => exact he

/-- The fields read from an encoded word are the operands, and the fixed digits lead the decoder back to the constructor. -/
theorem decodeWord_encode (i : Instr) : decodeWord (encode i) = .ok i := by
  cases i with
  | cls | ret => rfl
  | ldReg | orReg | andReg | xorReg | addReg | subReg | shr | subnReg | shl => simp [encode, decodeWord, decodeClass8]
  | ldVxDt | ldVxK | ldDtVx | ldStVx | addI | ldF | ldB | ldMemVx | ldVxMem => simp [encode, decodeWord, decodeClassF]
  | _ => simp [encode, decodeWord]

theorem decode_encodeBytes (i : Instr) (rest : List Byte) : decode (encodeBytes i ++ rest) = .ok (i, rest) := by
  simp only [encodeBytes, List.cons_append, List.nil_append, decode, wordOfBytes_hi_lo, decodeWord_encode]

theorem Illegal.decodeWord_eq {w : Word} {e : DecodeError} (h : Illegal w e) : decodeWord w = .error e := by
  cases e with
  | truncated => exact h.elim
  | class0 | class5 | class9 | classE => simp_all [Illegal, decodeWord]
  | class8 => simp_all [Illegal, decodeWord, decodeClass8]
  | classF => simp_all [Illegal, decodeWord, decodeClassF]

theorem decodeWord_eq_error_iff (w : Word) (e : DecodeError) : decodeWord w = .error e ↔ Illegal w e :=
  ⟨illegal_of_decodeWord, Illegal.decodeWord_eq⟩

/-! The discriminating fields by their numbers (R73). -/

theorem fieldC_eq_iff (w : Word) (c : BitVec 4) : fieldC w = c ↔ w.toNat / 4096 = c.toNat := by
  rw [← BitVec.toNat_inj, fieldC_toNat]

theorem fieldD_eq_iff (w : Word) (d : Nibble) : fieldD w = d ↔ w.toNat % 16 = d.toNat := by
  rw [← BitVec.toNat_inj, fieldD_toNat]

theorem fieldKk_eq_iff (w : Word) (kk : Byte) : fieldKk w = kk ↔ w.toNat % 256 = kk.toNat := by
  rw [← BitVec.toNat_inj, fieldKk_toNat]

/-! The rows of the opcode map (R75). -/

/-- A word selects a row of the opcode map (R75). -/
def OpcodeRow.Selects (r : OpcodeRow) (w : Word) : Prop := w &&& r.mask = r.want

theorem selects_ofWord (w v : Word) : (OpcodeRow.ofWord v).Selects w ↔ w = v := by
  rw [OpcodeRow.Selects, OpcodeRow.ofWord, show 0xFFFF#16 = BitVec.allOnes 16 from rfl, BitVec.and_allOnes]

/-- A row of one class is selected by that class (R76). -/
theorem selects_ofClass (w : Word) (c : BitVec 4) : (OpcodeRow.ofClass c).Selects w ↔ fieldC w = c := by
  have hw : w &&& 0xF000#16 = encodeNnn (fieldC w) 0x000#12 :=
    (congrArg (· &&& 0xF000#16) (word_eq_encodeNnn w)).trans (Laws.RowMatch.encodeNnn_class _ _)
  constructor
  · intro h
    have he : encodeNnn (fieldC w) 0x000#12 = encodeNnn c 0x000#12 := hw.symm.trans h
    simpa using congrArg fieldC he
  · rintro rfl
    exact hw

/-- A row of class and low nibble is selected by the two fields (R76). -/
theorem selects_ofNibble (w : Word) (c d : BitVec 4) :
    (OpcodeRow.ofNibble c d).Selects w ↔ fieldC w = c ∧ fieldD w = d := by
  have hw : w &&& 0xF00F#16 = encodeXyn (fieldC w) 0x0#4 0x0#4 (fieldD w) :=
    (congrArg (· &&& 0xF00F#16) (word_eq_encodeXyn w)).trans (Laws.RowMatch.encodeXyn_nibble _ _ _ _)
  have hr : ∀ a b, (OpcodeRow.ofNibble a b).want = encodeXyn a 0x0#4 0x0#4 b := by decide
  constructor
  · intro h
    have he := hw.symm.trans (h.trans (hr c d))
    exact ⟨by simpa using congrArg fieldC he, by simpa using congrArg fieldD he⟩
  · rintro ⟨rfl, rfl⟩
    exact hw.trans (hr _ _).symm

/-- A row of class and low byte is selected by the two fields (R76). -/
theorem selects_ofByte (w : Word) (c : BitVec 4) (kk : Byte) :
    (OpcodeRow.ofByte c kk).Selects w ↔ fieldC w = c ∧ fieldKk w = kk := by
  have hw : w &&& 0xF0FF#16 = encodeXkk (fieldC w) 0x0#4 (fieldKk w) :=
    (congrArg (· &&& 0xF0FF#16) (word_eq_encodeXkk w)).trans (Laws.RowMatch.encodeXkk_byte _ _ _)
  constructor
  · intro h
    have he : encodeXkk (fieldC w) 0x0#4 (fieldKk w) = encodeXkk c 0x0#4 kk := hw.symm.trans h
    exact ⟨by simpa using congrArg fieldC he, by simpa using congrArg fieldKk he⟩
  · rintro ⟨rfl, rfl⟩
    exact hw

theorem Instr.row_mem (i : Instr) : i.row ∈ opcodeRows := by
  cases i <;> simp only [Instr.row] <;> decide

/-- Every instruction's word selects the instruction's own row, by the family RowMatch. -/
theorem Instr.row_selects_encode : ∀ i : Instr, i.row.Selects (encode i)
  | .cls => Laws.RowMatch.cls
  | .ret => Laws.RowMatch.ret
  | .jp nnn => Laws.RowMatch.jp nnn
  | .call nnn => Laws.RowMatch.call nnn
  | .seImm x kk => Laws.RowMatch.seImm x kk
  | .sneImm x kk => Laws.RowMatch.sneImm x kk
  | .seReg x y => Laws.RowMatch.seReg x y
  | .ldImm x kk => Laws.RowMatch.ldImm x kk
  | .addImm x kk => Laws.RowMatch.addImm x kk
  | .ldReg x y => Laws.RowMatch.ldReg x y
  | .orReg x y => Laws.RowMatch.orReg x y
  | .andReg x y => Laws.RowMatch.andReg x y
  | .xorReg x y => Laws.RowMatch.xorReg x y
  | .addReg x y => Laws.RowMatch.addReg x y
  | .subReg x y => Laws.RowMatch.subReg x y
  | .shr x y => Laws.RowMatch.shr x y
  | .subnReg x y => Laws.RowMatch.subnReg x y
  | .shl x y => Laws.RowMatch.shl x y
  | .sneReg x y => Laws.RowMatch.sneReg x y
  | .ldI nnn => Laws.RowMatch.ldI nnn
  | .jpV0 nnn => Laws.RowMatch.jpV0 nnn
  | .rnd x kk => Laws.RowMatch.rnd x kk
  | .drw x y n => Laws.RowMatch.drw x y n
  | .skp x => Laws.RowMatch.skp x
  | .sknp x => Laws.RowMatch.sknp x
  | .ldVxDt x => Laws.RowMatch.ldVxDt x
  | .ldVxK x => Laws.RowMatch.ldVxK x
  | .ldDtVx x => Laws.RowMatch.ldDtVx x
  | .ldStVx x => Laws.RowMatch.ldStVx x
  | .addI x => Laws.RowMatch.addI x
  | .ldF x => Laws.RowMatch.ldF x
  | .ldB x => Laws.RowMatch.ldB x
  | .ldMemVx x => Laws.RowMatch.ldMemVx x
  | .ldVxMem x => Laws.RowMatch.ldVxMem x

/-- An illegal word is neither of the two words that have a row of their own. -/
theorem Illegal.ne_cls_ret {w : Word} {e : DecodeError} (h : Illegal w e) : w ≠ 0x00E0#16 ∧ w ≠ 0x00EE#16 := by
  constructor
  · rintro rfl
    exact absurd (h.decodeWord_eq.symm.trans (decodeWord_encode .cls)) nofun
  · rintro rfl
    exact absurd (h.decodeWord_eq.symm.trans (decodeWord_encode .ret)) nofun

/-- An illegal word selects no row: the rows of its class fix other low digits, and every other row another class (R76, R77). -/
theorem Illegal.selects_no_row {w : Word} {e : DecodeError} (h : Illegal w e) : ∀ r ∈ opcodeRows, ¬ r.Selects w := by
  have hw := h.ne_cls_ret
  cases e with
  | truncated => exact h.elim
  | class0 | class5 | class9 =>
    obtain ⟨hc, hlow⟩ := h
    simp [opcodeRows, selects_ofWord, selects_ofClass, selects_ofNibble, selects_ofByte, hw, hc, hlow]
  | class8 | classE | classF =>
    obtain ⟨hc, hlow⟩ := h
    simp only [List.mem_cons, List.not_mem_nil, or_false, not_or] at hlow
    simp [opcodeRows, selects_ofWord, selects_ofClass, selects_ofNibble, selects_ofByte, hw, hc, hlow]

/-- Two rows that one word selects want the same bits wherever both masks look. -/
theorem OpcodeRow.Selects.agree {r r' : OpcodeRow} {w : Word} (h : r.Selects w) (h' : r'.Selects w) :
    r.want &&& r'.mask = r'.want &&& r.mask := by
  rw [← show w &&& r.mask = r.want from h, ← show w &&& r'.mask = r'.want from h', BitVec.and_assoc, BitVec.and_assoc,
    BitVec.and_comm r.mask]

/-- Any two of the rows differ in a bit that both masks look at (R79). -/
theorem opcodeRows_disagree : opcodeRows.Pairwise fun r r' => r.want &&& r'.mask ≠ r'.want &&& r.mask := by
  decide

theorem row_index_unique {w : Word} {j k : Fin 34} {r r' : OpcodeRow} (hj : opcodeRows[j.val]? = some r) (hk : opcodeRows[k.val]? = some r')
    (h : r.Selects w) (h' : r'.Selects w) : j = k := by
  obtain ⟨_, rfl⟩ := List.getElem?_eq_some_iff.1 hj
  obtain ⟨_, rfl⟩ := List.getElem?_eq_some_iff.1 hk
  have hp := List.pairwise_iff_getElem.1 opcodeRows_disagree
  rcases lt_trichotomy j k with hlt | heq | hgt
  · exact absurd (h.agree h') (hp _ _ _ _ hlt)
  · exact heq
  · exact absurd (h'.agree h) (hp _ _ _ _ hgt)

/-- A word decodes exactly when it selects a row: its instruction's row, or else it would be illegal (R76). -/
theorem decodeWord_ok_iff_selects (w : Word) : (∃ i, decodeWord w = .ok i) ↔ ∃ r ∈ opcodeRows, r.Selects w := by
  constructor
  · rintro ⟨i, h⟩
    rw [eq_encode_of_decodeWord h]
    exact ⟨i.row, i.row_mem, i.row_selects_encode⟩
  · rintro ⟨r, hr, hsel⟩
    cases hd : decodeWord w with
    | ok i => exact ⟨i, rfl⟩
    | error e => exact absurd hsel ((illegal_of_decodeWord hd).selects_no_row r hr)

/-! The statements. -/

/-- Settles O2, from the word and from the bytes. -/
theorem decodeInvertsEncode : Obligations.DecodeInvertsEncode :=
  fun i rest => ⟨decodeWord_encode i, decode_encodeBytes i rest⟩

/-- Settles O3: the word is put together from the fields that the decoder reads. -/
theorem encodeInvertsDecode : Obligations.EncodeInvertsDecode :=
  fun _ _ h => (eq_encode_of_decodeWord h).symm

/-- Settles O4: a refusal stands for its row of R77's table, whose fields are then read as numbers. Only class 8 is left after that:
R77 lists its illegal nibbles, R76 its legal ones. -/
theorem illegalWordsExactly : Obligations.IllegalWordsExactly := by
  intro w
  simp only [decodeWord_eq_error_iff, Illegal, fieldC_eq_iff, fieldD_eq_iff, fieldKk_eq_iff, ne_eq, List.mem_cons,
    List.not_mem_nil, or_false]
  simp only [← BitVec.toNat_inj, BitVec.reduceToNat, true_and, and_true]
  omega

/-- Settles O5: the rows disagree pairwise, and a word selects one exactly when it decodes. -/
theorem opcodeRowsDecide : Obligations.OpcodeRowsDecide :=
  ⟨rfl, fun _ _ _ _ _ hj hk h h' => row_index_unique hj hk h h', decodeWord_ok_iff_selects⟩

/-- Settles O1, word by word. -/
theorem sampleWordsDecode : Obligations.SampleWordsDecode := by
  unfold Obligations.SampleWordsDecode
  decide

end Sys2Proof

namespace Sys2Proof.Machine

/-- Settles O37: the fetched word is the two bytes in big-endian order. -/
theorem fetchIsBigEndian : Obligations.FetchIsBigEndian := fun _ => wordOfBytes_toNat _ _

/-- Settles O39: the ticks leave FAULT, PC, memory and the parameters, so the step event after them executes the same instruction. -/
theorem stepRunsDecodedInstruction : Obligations.StepRunsDecodedInstruction := by
  intro s i h
  have hticks : (s.ticks s.input.ticks).executes i := h
  exact congrArg (mapNext State.nextInput) (stepBody_of_executes hticks)

end Sys2Proof.Machine
end

section
/-! PROOFS. The statements about arithmetic and logic (spec/40_alu.md). Every instruction here is one `setReg`, or one `setResult` when it
sets VF (R24), of the entry state, so that the frame holds by definition; what is left is the result as a number and the flag. -/

namespace Sys2Proof.Machine

/-! The registers after an instruction with a flag (R24). -/

/-- VF ends as the flag, also when it is the destination. -/
theorem State.reg_setResult_flag (s : State) (x : Reg) (b : Byte) (f : Bool) : (s.setResult x b f).reg 0xF#4 = flagByte f := by
  rw [State.reg_setResult, if_pos rfl]

/-- A destination other than VF ends as the result. -/
theorem State.reg_setResult_dest (s : State) {x : Reg} (b : Byte) (f : Bool) (hx : x ≠ 0xF#4) : (s.setResult x b f).reg x = b := by
  rw [State.reg_setResult, if_neg hx, if_pos rfl]

/-- `State.reg_setResult_ne` with its hypothesis as the statements have it. -/
theorem State.reg_setResult_other (s : State) {x k : Reg} (b : Byte) (f : Bool) (hx : k ≠ x) (hf : k ≠ 0xF#4) :
    (s.setResult x b f).reg k = s.reg k :=
  State.reg_setResult_ne s b f (by simp [hx, hf])

/-! The results as numbers. -/

theorem toNat_byte_sub (a b : Byte) : (a - b).toNat = (a.toNat + 256 - b.toNat) % 256 := by
  have hb : b.toNat ≤ 256 := b.isLt.le
  rw [BitVec.toNat_sub', Nat.add_sub_assoc hb a.toNat]

theorem toNat_byte_shiftRight_one (a : Byte) : (a >>> 1).toNat = a.toNat / 2 := by
  rw [BitVec.toNat_ushiftRight, Nat.shiftRight_one]

theorem toNat_byte_shiftLeft_one (a : Byte) : (a <<< 1).toNat = a.toNat * 2 % 256 := by
  rw [BitVec.toNat_shiftLeft, Nat.shiftLeft_eq]

/-! The flags (R22). -/

theorem flagByte_decide (p : Prop) [Decidable p] : flagByte (decide p) = if p then 0x01#8 else 0x00#8 := by
  simp only [flagByte, decide_eq_true_eq]

/-- The flag of a bit shifted out is the bit as a number. -/
theorem toNat_flagByte_bit (a : Byte) (j : Nat) : (flagByte (a.getLsbD j)).toNat = a.toNat / 2 ^ j % 2 := by
  rw [BitVec.getLsbD, Nat.testBit_eq_decide_div_mod_eq, flagByte_decide]
  split
  · next h => exact h.symm
  · next h => exact (Nat.mod_two_ne_one.1 h).symm

theorem toNat_flagByte_lowBit (a : Byte) : (flagByte (lowBit a)).toNat = a.toNat % 2 := by
  rw [lowBit, toNat_flagByte_bit, Nat.pow_zero, Nat.div_one]

/-- Nothing of a byte lies above bit 7. -/
theorem toNat_flagByte_highBit (a : Byte) : (flagByte (highBit a)).toNat = a.toNat / 128 := by
  have hlt : a.toNat < 256 := a.isLt
  have hbit : (flagByte (highBit a)).toNat = a.toNat / 128 % 2 := toNat_flagByte_bit a 7
  omega

/-! The statements. -/

/-- Settles O6: both are `setReg`, read back by `State.reg_setReg`. -/
theorem loadsSetRegister : Obligations.LoadsSetRegister := fun s x =>
  ⟨fun kk => ⟨s.setReg x kk, rfl, s.reg_setReg x kk, rfl⟩, fun y => ⟨s.setReg x (s.reg y), rfl, s.reg_setReg x (s.reg y), rfl⟩⟩

/-- Settles O7: the sum of bytes is the sum modulo 256, and `setReg` leaves the other registers. -/
theorem addImmWrapsWithoutFlag : Obligations.AddImmWrapsWithoutFlag := by
  intro s x kk
  refine ⟨s.setReg x (s.reg x + kk), rfl, ?_, fun _ => s.reg_setReg_ne x _, rfl⟩
  rw [State.reg_setReg_self, BitVec.toNat_add]

/-- Settles O8: each bit of the destination by the bit lemma of its operator. -/
theorem bitwiseLeaveFlag : Obligations.BitwiseLeaveFlag := by
  intro s x y
  refine ⟨⟨s.setReg x (s.reg x ||| s.reg y), rfl, fun b => ?_, fun _ => s.reg_setReg_ne x _, rfl⟩,
    ⟨s.setReg x (s.reg x &&& s.reg y), rfl, fun b => ?_, fun _ => s.reg_setReg_ne x _, rfl⟩,
    ⟨s.setReg x (s.reg x ^^^ s.reg y), rfl, fun b => ?_, fun _ => s.reg_setReg_ne x _, rfl⟩⟩
  · rw [State.reg_setReg_self, BitVec.getLsbD_or]
  · rw [State.reg_setReg_self, BitVec.getLsbD_and]
  · rw [State.reg_setReg_self, BitVec.getLsbD_xor]

/-- Settles O9: the destination is the sum of bytes, VF the decided carry of the old values. -/
theorem addSetsCarry : Obligations.AddSetsCarry := by
  intro s x y
  refine ⟨_, rfl, fun hx => ?_, ?_, fun _ => s.reg_setResult_other _ _, rfl⟩
  · rw [s.reg_setResult_dest _ _ hx, BitVec.toNat_add]
  · rw [s.reg_setResult_flag, carryOut, flagByte_decide]

/-- Settles O10: SUBN is SUB with the operands exchanged, result and flag both by the same lemmas. -/
theorem subtractsSetNoBorrow : Obligations.SubtractsSetNoBorrow := by
  intro s x y
  refine ⟨⟨_, rfl, fun hx => ?_, ?_, fun _ => s.reg_setResult_other _ _, rfl⟩,
    ⟨_, rfl, fun hx => ?_, ?_, fun _ => s.reg_setResult_other _ _, rfl⟩⟩
  · rw [s.reg_setResult_dest _ _ hx, toNat_byte_sub]
  · rw [s.reg_setResult_flag, noBorrow, flagByte_decide]
  · rw [s.reg_setResult_dest _ _ hx, toNat_byte_sub]
  · rw [s.reg_setResult_flag, noBorrow, flagByte_decide]

/-- Settles O11: the shifted byte as a number, and the bit shifted out as a number. -/
theorem shiftsSetFlagToBitOut : Obligations.ShiftsSetFlagToBitOut := by
  intro s x y
  refine ⟨⟨_, rfl, fun hx => ?_, ?_, fun _ => s.reg_setResult_other _ _, rfl⟩,
    ⟨_, rfl, fun hx => ?_, ?_, fun _ => s.reg_setResult_other _ _, rfl⟩⟩
  · rw [s.reg_setResult_dest _ _ hx, toNat_byte_shiftRight_one]
  · rw [s.reg_setResult_flag, toNat_flagByte_lowBit]
  · rw [s.reg_setResult_dest _ _ hx, toNat_byte_shiftLeft_one]
  · rw [s.reg_setResult_flag, toNat_flagByte_highBit]

end Sys2Proof.Machine
end

section
/-! PROOFS. The statements about control flow (spec/41_control.md). A jump, CALL, RET and a skip write PC and at most the call stack of
the entry state, so that the frame holds by definition; what is left is the target as a number, the slot a push writes, and that a pop
undoes a push. -/

namespace Sys2Proof.Machine

/-! The targets as numbers (R120, R121). -/

theorem toNat_extendAddr (nnn : Addr) : (extendAddr nnn).toNat = nnn.toNat := BitVec.toNat_setWidth_of_le (by decide)

/-- A byte and a 12-bit address: the 16-bit sum never wraps. -/
theorem toNat_jpV0_target (b : Byte) (nnn : Addr) : (extendByte b + extendAddr nnn).toNat = b.toNat + nnn.toNat := by
  have hb : b.toNat < 256 := b.isLt
  have hn : nnn.toNat < 4096 := nnn.isLt
  rw [jpV0_target, BitVec.toNat_ofNat, Nat.mod_eq_of_lt (by omega)]

/-! The call stack after a push, and a pop after it (R29, R122, R123). -/

/-- A push writes the slot at the old depth and no other. -/
theorem State.push_slot (s : State) (w : Word) (h : s.sp.val < 16) (j : Fin 16) :
    (s.push w h).stack[j] = if j.val = s.sp.val then w else s.stack[j] := by
  simp only [State.push_stack, Fin.getElem_fin, Vector.getElem_set, eq_comm]

/-- RET on the entry just pushed, wherever PC has gone meanwhile: the depth is back, and only the slot of the push stays changed. -/
theorem exec_ret_of_push (s : State) (w a : Word) (h : s.sp.val < 16) :
    exec .ret ((s.push w h).setPc a) = .next { s with pc := w, stack := (s.push w h).stack } := by
  have hslot : (s.stack.set s.sp.val w h)[s.sp.val] = w := Vector.getElem_set_self h
  have hheld : 0 < ((s.push w h).setPc a).sp.val := Nat.succ_pos _
  rw [exec_ret_of_held hheld]
  simp only [State.pop, State.push, State.setPc, Nat.add_sub_cancel, hslot]

/-! The skips (R124 to R127). -/

theorem skipIf_decide (p : Prop) [Decidable p] (s : State) :
    skipIf (decide p) s = .next { s with pc := if p then s.pc + 2#16 else s.pc } := by
  by_cases hp : p
  · rw [decide_eq_true hp, if_pos hp]; rfl
  · rw [decide_eq_false hp, if_neg hp]; rfl

theorem skipIf_bytes_eq (a b : Byte) (s : State) :
    skipIf (decide (a = b)) s = .next { s with pc := if a.toNat = b.toNat then s.pc + 2#16 else s.pc } := by
  simp only [skipIf_decide, BitVec.toNat_inj]

theorem skipIf_bytes_ne (a b : Byte) (s : State) :
    skipIf (decide (a ≠ b)) s = .next { s with pc := if a.toNat = b.toNat then s.pc else s.pc + 2#16 } := by
  simp only [skipIf_decide, ite_not, BitVec.toNat_inj]

/-! The statements. -/

/-- Settles O12: both are one `setPc`, its target as a number. -/
theorem jumpsSetPc : Obligations.JumpsSetPc := fun s nnn =>
  ⟨⟨_, rfl, toNat_extendAddr nnn, rfl⟩, ⟨_, rfl, toNat_jpV0_target (s.reg 0x0#4) nnn, rfl⟩⟩

/-- Settles O13: with room a push and a jump, at depth 16 the fault and nothing else. -/
theorem callPushesOrOverflows : Obligations.CallPushesOrOverflows := by
  intro s nnn
  constructor
  · intro hroom
    exact ⟨_, exec_call_of_room hroom, toNat_extendAddr nnn, rfl, s.push_slot s.pc hroom, rfl⟩
  · intro hfull
    exact exec_call_of_full (by omega)

/-- Settles O14: with an entry held the newest is popped into PC, at depth 0 the fault and nothing else. -/
theorem retPopsOrUnderflows : Obligations.RetPopsOrUnderflows := by
  intro s
  constructor
  · intro hheld
    refine ⟨_, exec_ret_of_held hheld, Nat.sub_add_cancel hheld, fun j hj => ?_, rfl⟩
    have hnewest : s.sp.val - 1 = j.val := by omega
    simp only [State.setPc_pc, State.pop, hnewest, Fin.getElem_fin]
  · intro hempty
    exact exec_ret_of_empty (by omega)

/-- Settles O15: RET undoes the push of CALL up to the slot that the push wrote. -/
theorem callThenRetReturns : Obligations.CallThenRetReturns := by
  intro s nnn hroom
  refine ⟨_, _, exec_call_of_room hroom, exec_ret_of_push s s.pc _ hroom, rfl, rfl, fun j hj => ?_, rfl⟩
  exact (s.push_slot s.pc hroom j).trans (if_neg hj)

/-- Settles O16: SE is `skipIf` of an equality of bytes, SNE of an inequality. -/
theorem skipsOnCondition : Obligations.SkipsOnCondition := fun s x =>
  ⟨fun kk => ⟨skipIf_bytes_eq (s.reg x) kk s, skipIf_bytes_ne (s.reg x) kk s⟩,
    fun y => ⟨skipIf_bytes_eq (s.reg x) (s.reg y) s, skipIf_bytes_ne (s.reg x) (s.reg y) s⟩⟩

end Sys2Proof.Machine
end

section
/-! PROOFS. The statements about the display (spec/42_display.md): what CLS and DRW do to every pixel and to VF (R140, R141), that a
second draw undoes the first, and that nothing else but reset writes the framebuffer (R142). The picture DRW leaves is named once,
`State.drawn`; its pixels and its collision are read off the row lemmas of Laws/Ops.lean through `State.rowsBit_eq_spriteBit`. -/

namespace Sys2Proof.Machine

/-! What DRW draws (R141). -/

/-- The rows that DRW draws put on each pixel the sprite bit of Safety.lean: the distances from Vy and Vx are the same modulo 32 and
64 whether the coordinate is reduced first or not. -/
theorem State.rowsBit_eq_spriteBit (s : State) (x y : Reg) (n : Nibble) (r : Fin 32) (c : Fin 64) :
    rowsBit (s.reg x).toNat (s.reg y).toNat (s.readBytes s.i.toNat n.toNat) r c = s.spriteBit x y n r c := by
  have hx : (s.reg x).toNat < 256 := (s.reg x).isLt
  have hy : (s.reg y).toNat < 256 := (s.reg y).isLt
  have hrow : (r.val + 32 - (s.reg y).toNat % 32) % 32 = (r.val + 256 - (s.reg y).toNat) % 32 := by omega
  have hcol : (c.val + 64 - (s.reg x).toNat % 64) % 64 = (c.val + 256 - (s.reg x).toNat) % 64 := by omega
  simp only [rowsBit, State.spriteBit, hrow, State.readBytes_getElem?]
  by_cases hn : (r.val + 256 - (s.reg y).toNat) % 32 < n.toNat
  · simp only [if_pos hn, rowBit, hcol, decide_eq_true hn, Bool.true_and]
  · simp only [if_neg hn, decide_eq_false hn, Bool.false_and]

/-- The picture that `DRW Vx,Vy,n` leaves, and whether it collided. -/
def State.drawn (s : State) (x y : Reg) (n : Nibble) : Canvas :=
  drawRows (s.reg x).toNat (s.reg y).toNat (s.readBytes s.i.toNat n.toNat) (s.fb, false)

/-- A sprite has at most 15 rows, so that its rows meet no row of pixels twice. -/
theorem State.spriteRows_length_lt (s : State) (n : Nibble) : (s.readBytes s.i.toNat n.toNat).length < 32 := by
  have hn : n.toNat < 16 := n.isLt
  rw [State.readBytes_length]
  omega

theorem State.drawn_pixel (s : State) (x y : Reg) (n : Nibble) (r : Fin 32) (c : Fin 64) :
    (s.drawn x y n).1.pixel r c = (s.fb.pixel r c ^^ s.spriteBit x y n r c) := by
  rw [State.drawn, drawRows_pixel _ _ _ (s.spriteRows_length_lt n), s.rowsBit_eq_spriteBit]

theorem State.drawn_hit (s : State) (x y : Reg) (n : Nibble) :
    (s.drawn x y n).2 = true ↔ ∃ r c, s.fb.pixel r c = true ∧ s.spriteBit x y n r c = true := by
  rw [State.drawn, drawRows_hit _ _ _ (s.spriteRows_length_lt n)]
  simp only [s.rowsBit_eq_spriteBit, Bool.false_eq_true, false_or]

/-- `exec_drw_inside` with the canvas named: DRW completes with the picture drawn and VF the collision. -/
theorem exec_drw_drawn {s : State} {x y : Reg} {n : Nibble} (h : n.toNat = 0 ∨ s.i.toNat + n.toNat ≤ 4096) :
    exec (.drw x y n) s = .next ((s.setFb (s.drawn x y n).1).setFlag (s.drawn x y n).2) :=
  guardAccess_inside h s _

/-- A flag with a meaning is 1 exactly when the meaning holds (R22). -/
theorem flagByte_of_iff {f : Bool} {p : Prop} [Decidable p] (h : f = true ↔ p) : flagByte f = if p then 0x01#8 else 0x00#8 :=
  if_congr h rfl rfl

/-- The sprite bits depend on I, memory and the two coordinates only. -/
theorem State.spriteBit_congr {s t : State} {x y : Reg} (hi : t.i = s.i) (hm : t.mem = s.mem) (hx : t.reg x = s.reg x)
    (hy : t.reg y = s.reg y) (n : Nibble) (r : Fin 32) (c : Fin 64) : t.spriteBit x y n r c = s.spriteBit x y n r c := by
  simp only [State.spriteBit, State.readByte, hi, hm, hx, hy]

/-! A changed pixel (R31, R141). -/

theorem FrameBuffer.exists_pixel_ne {fb fb' : FrameBuffer} (h : fb ≠ fb') : ∃ r c, fb.pixel r c ≠ fb'.pixel r c := by
  by_contra hsame
  exact h (FrameBuffer.ext_pixel fun r c => by_contra fun hrc => hsame ⟨r, c, hrc⟩)

/-- A pixel that a sprite bit changed without meeting it set is set afterwards, under a set bit. -/
theorem xor_set_of_changed {pixel bit : Bool} (hne : (pixel ^^ bit) ≠ pixel) (hapart : ¬ (pixel = true ∧ bit = true)) :
    (pixel ^^ bit) = true ∧ bit = true := by
  cases bit
  · exact absurd (Bool.xor_false pixel) hne
  · cases pixel
    · exact ⟨rfl, rfl⟩
    · exact absurd ⟨rfl, rfl⟩ hapart

/-! Who writes the framebuffer (R142). -/

@[simp] theorem State.loadBlock_fb (s : State) (a n : Nat) : (s.loadBlock a n).fb = s.fb := by
  rw [State.loadBlock_eq]

@[simp] theorem State.moveI_fb (s : State) (x : Reg) : (s.moveI x).fb = s.fb := by
  rcases s.moveI_cases x with ⟨-, e⟩ | ⟨-, e⟩ <;> rw [e]
  rfl

/-- An instruction that draws: CLS or DRW. -/
def draws (i : Instr) : Prop := i = .cls ∨ ∃ x y n, i = .drw x y n

/-- The framebuffer after an instruction is as it was, or the instruction draws. -/
theorem exec_fb_cases {i : Instr} {s t : State} (h : exec i s = .next t) : t.fb = s.fb ∨ draws i := by
  cases i with
  | cls => exact .inr (.inl rfl)
  | drw x y n => exact .inr (.inr ⟨x, y, n, rfl⟩)
  | ldMemVx x =>
    rcases execLdMemVx_cases h with ⟨-, rfl⟩ | rfl
    · exact .inl (State.moveI_fb _ x)
    · exact .inl rfl
  | ldVxMem x =>
    rcases execLdVxMem_cases h with ⟨-, rfl⟩ | rfl
    · exact .inl (by rw [State.moveI_fb, State.loadBlock_fb])
    · exact .inl rfl
  | seImm _ _ | sneImm _ _ | seReg _ _ | sneReg _ _ => rcases skipIf_cases h with ⟨-, rfl⟩ | ⟨-, rfl⟩ <;> exact .inl rfl
  | call nnn => rcases execCall_cases h with ⟨hs, rfl⟩ | ⟨-, rfl⟩ <;> exact .inl rfl
  | ret => rcases execRet_cases h with ⟨hs, rfl⟩ | ⟨-, rfl⟩ <;> exact .inl rfl
  | ldB x => rcases execLdB_cases h with ⟨-, rfl⟩ | rfl <;> exact .inl rfl
  | skp x => rcases execSkp_cases h with ⟨-, rfl⟩ | ⟨q, -, -, rfl⟩ | ⟨q, -, -, rfl⟩ <;> exact .inl rfl
  | sknp x =>
    rcases execSknp_cases h with ⟨-, -, rfl⟩ | ⟨-, -, rfl⟩ | ⟨q, -, -, rfl⟩ | ⟨q, -, -, rfl⟩ <;> exact .inl rfl
  | ldVxK x => rcases execLdVxK_cases h with ⟨-, rfl⟩ | ⟨q, -, rfl⟩ <;> exact .inl rfl
  | _ => injection h with h; subst h; exact .inl rfl

/-- The framebuffer after the body of a step event is as it was, or the event executed an instruction that draws. -/
theorem stepBody_fb_cases {s t : State} (h : stepBody s = .next t) : t.fb = s.fb ∨ ∃ i, s.executes i ∧ draws i := by
  rcases stepBody_cases s with ⟨-, e⟩ | ⟨-, -, e⟩ | ⟨hs, ha, i, hd, hw, e⟩ | ⟨-, -, -, e⟩ <;> rw [e] at h
  case inr.inr.inl =>
    exact (exec_fb_cases h).imp_right fun hi => ⟨i, ⟨hs, ha, hd, hw⟩, hi⟩
  all_goals injection h with h; subst h; exact .inl rfl

/-! The statements. -/

/-- Settles O18: inside memory DRW leaves the drawn picture and VF its collision, outside it is the guard's fault. -/
theorem drwXorsSprite : Obligations.DrwXorsSprite := by
  intro s x y n
  constructor
  · intro hmem
    refine ⟨_, exec_drw_drawn (by omega), s.drawn_pixel x y n, ?_, fun k hk => ?_, rfl⟩
    · rw [State.reg_setFlag, if_pos rfl, flagByte_of_iff (s.drawn_hit x y n)]
    · rw [State.reg_setFlag, if_neg hk, State.setFb_reg]
  · intro hn hi
    exact guardAccess_outside (by omega) _ _

/-- Settles O19: VF apart, the second draw starts with the coordinates, I and memory of the first, so that it XORs the same sprite
bits; a pixel changed without a collision was unset and is now set under a set sprite bit. -/
theorem drawTwiceErases : Obligations.DrawTwiceErases := by
  intro s x y n hx hy hmem
  obtain ⟨t, ht, htpix, htflag, htreg, htframe⟩ := (drwXorsSprite s x y n).1 hmem
  have hti : t.i = s.i := by rw [htframe]
  have hbit : t.spriteBit x y n = s.spriteBit x y n :=
    funext₂ fun r c => State.spriteBit_congr hti (by rw [htframe]) (htreg x hx) (htreg y hy) n r c
  obtain ⟨u, hu, hupix, huflag, -, -⟩ := (drwXorsSprite t x y n).1 (hti ▸ hmem)
  refine ⟨t, u, ht, hu, FrameBuffer.ext_pixel fun r c => ?_, fun hne hclear => ?_⟩
  · rw [hupix, htpix, hbit, Bool.xor_assoc, Bool.xor_self, Bool.xor_false]
  · have hapart : ¬ ∃ r c, s.fb.pixel r c = true ∧ s.spriteBit x y n r c = true := fun hmet => by
      rw [htflag, if_pos hmet] at hclear
      contradiction
    obtain ⟨r, c, hrc⟩ := FrameBuffer.exists_pixel_ne hne
    rw [htpix] at hrc
    obtain ⟨hset, hbitset⟩ := xor_set_of_changed hrc fun hmet => hapart ⟨r, c, hmet⟩
    rw [huflag, if_pos ⟨r, c, (htpix r c).trans hset, hbit ▸ hbitset⟩]

/-- Settles O51: a tick leaves the framebuffer, and the body of a step event changes it only by an instruction that draws. -/
theorem framebufferWriters : Obligations.FramebufferWriters := by
  intro e s t h hne
  cases e with
  | reset prog => exact .inl ⟨prog, rfl⟩
  | tick => injection h with h; subst h; exact absurd s.tick_fb hne
  | step =>
    obtain ⟨u, hu, rfl⟩ := mapNext_eq_next h
    exact .inr ⟨rfl, (stepBody_fb_cases hu).resolve_left hne⟩

/-- Settles O17: CLS replaces the framebuffer by the clear one and touches nothing else. -/
theorem clsClearsEveryPixel : Obligations.ClsClearsEveryPixel := fun s =>
  ⟨s.setFb FrameBuffer.clear, rfl, FrameBuffer.pixel_clear, rfl⟩

end Sys2Proof.Machine
end

section
/-! PROOFS. The statements about the timers (spec/43_timers.md): the three timer moves (R151 to R153), what ticks do to DT and ST (R150),
and that ST decides nothing (R154). For the last, each shared operation is shown to commute with a change `f` of the state that it does
not look at; ST is the case `f = (·.setSt b)`. -/

namespace Sys2Proof.Machine

/-! The shared operations commute with a change of the state that they do not look at. -/

section Commutes
variable {f : State → State} {s : State}

theorem guardAccess_comm (hraise : ∀ k w, (f s).raise k w = f (s.raise k w)) (base : Word) (len : Nat)
    (body : Host.Outcome State Fault Refusal) :
    guardAccess base len (f s) (mapNext f body) = mapNext f (guardAccess base len s body) := by
  unfold guardAccess
  split
  · rfl
  · rw [mapNext_next, hraise]

theorem guardLow_comm (hconfig : (f s).config = s.config) (base : Word) (body : Host.Outcome State Fault Refusal) :
    guardLow base (f s) (mapNext f body) = mapNext f (guardLow base s body) := by
  unfold guardLow
  rw [hconfig]
  split <;> rfl

theorem skipIf_comm (hadvance : (f s).advance = f s.advance) (c : Bool) : skipIf c (f s) = mapNext f (skipIf c s) := by
  cases c
  · rfl
  · exact congrArg Host.Outcome.next hadvance

theorem State.moveI_comm (hconfig : (f s).config = s.config) (hi : ∀ n, (f s).setI ((f s).i + n) = f (s.setI (s.i + n))) (x : Reg) :
    (f s).moveI x = f (s.moveI x) := by
  unfold State.moveI
  rw [hconfig]
  split
  · exact hi _
  · rfl

theorem State.loadBlock_comm (hread : ∀ a, (f s).readByte a = s.readByte a) (hset : ∀ t x b, (f t).setReg x b = f (t.setReg x b))
    (a n : Nat) : (f s).loadBlock a n = f (s.loadBlock a n) := by
  induction n with
  | zero => rfl
  | succ n ih => rw [State.loadBlock, ih, hread, hset, State.loadBlock]

end Commutes

/-! The body of a step event in the cases that the layers above leave open (spec/30_encoding.md R70). -/

/-- A faulted core does nothing (spec/60_exceptions.md R210). -/
theorem stepBody_of_faulted {s : State} (hs : s.fault ≠ none) : stepBody s = .next s :=
  if_pos (Option.isSome_iff_ne_none.2 hs)

/-- An illegal word raises DecodeFailure(w), PC past it (spec/60_exceptions.md R201). -/
theorem stepBody_of_illegalWord {s : State} (hs : s.fault = none) (ha : s.pc.toNat ≤ 0xFFE) (hw : s.illegalWord) :
    stepBody s = .next (s.advance.raise .decodeFailure s.fetchWord) := by
  rcases stepBody_cases s with ⟨hn, -⟩ | ⟨-, hn, -⟩ | ⟨-, -, i, hd, hi, -⟩ | ⟨-, -, -, e⟩
  · exact absurd hs hn
  · omega
  · rw [hw i hd] at hi
    contradiction
  · exact e

/-! ST decides nothing (R154): with another ST everything answers the same, but for ST. -/

/-- An instruction from a state with another ST answers the same next state or refusal, but for ST: LD ST,Vx overwrites it, and every
other instruction keeps it. -/
theorem exec_setSt (i : Instr) (s : State) (b : Byte) : ∃ c, exec i (s.setSt b) = mapNext (·.setSt c) (exec i s) := by
  cases i with
  | ldStVx x => exact ⟨s.reg x, rfl⟩
  | seImm _ _ | sneImm _ _ | seReg _ _ | sneReg _ _ => exact ⟨b, skipIf_comm (f := (·.setSt b)) rfl _⟩
  | call nnn =>
    refine ⟨b, ?_⟩
    by_cases hs : s.sp.val < 16
    · rw [exec_call_of_room hs, exec_call_of_room (s := s.setSt b) hs]; rfl
    · rw [exec_call_of_full hs, exec_call_of_full (s := s.setSt b) hs]; rfl
  | ret =>
    refine ⟨b, ?_⟩
    by_cases hs : 0 < s.sp.val
    · rw [exec_ret_of_held hs, exec_ret_of_held (s := s.setSt b) hs]; rfl
    · rw [exec_ret_of_empty hs, exec_ret_of_empty (s := s.setSt b) hs]; rfl
  | drw x y n =>
    refine ⟨b, .trans ?_ (guardAccess_comm (f := (·.setSt b)) (fun _ _ => rfl) _ _ _)⟩
    rfl
  | ldB x =>
    refine ⟨b, .trans ?_ (guardAccess_comm (f := (·.setSt b)) (fun _ _ => rfl) _ _ _)⟩
    rw [← guardLow_comm (f := (·.setSt b)) rfl]
    rfl
  | ldMemVx x =>
    refine ⟨b, .trans ?_ (guardAccess_comm (f := (·.setSt b)) (fun _ _ => rfl) _ _ _)⟩
    rw [← guardLow_comm (f := (·.setSt b)) rfl, mapNext_next, ← State.moveI_comm (f := (·.setSt b)) rfl (fun _ => rfl)]
    rfl
  | ldVxMem x =>
    refine ⟨b, .trans ?_ (guardAccess_comm (f := (·.setSt b)) (fun _ _ => rfl) _ _ _)⟩
    rw [mapNext_next, ← State.moveI_comm (f := (·.setSt b)) rfl (fun _ => rfl),
      ← State.loadBlock_comm (f := (·.setSt b)) (fun _ => rfl) (fun _ _ _ => rfl)]
    rfl
  | skp x =>
    refine ⟨b, ?_⟩
    cases hq : s.keyQuery with
    | none => rw [exec_skp_of_noKey hq, exec_skp_of_noKey (s := s.setSt b) hq]; rfl
    | some k =>
      rw [exec_skp_of_key hq, exec_skp_of_key (s := s.setSt b) hq, State.setSt_reg, mapNext_next]
      split <;> rfl
  | sknp x =>
    refine ⟨b, ?_⟩
    cases hq : s.keyQuery with
    | none =>
      rw [exec_sknp_of_noKey hq, exec_sknp_of_noKey (s := s.setSt b) hq, State.setSt_config, mapNext_next]
      split <;> rfl
    | some k =>
      rw [exec_sknp_of_key hq, exec_sknp_of_key (s := s.setSt b) hq, State.setSt_reg, mapNext_next]
      split <;> rfl
  | ldVxK x =>
    refine ⟨b, ?_⟩
    cases hq : s.keyQuery with
    | none => rw [exec_ldVxK_of_noKey hq, exec_ldVxK_of_noKey (s := s.setSt b) hq]; rfl
    | some k => rw [exec_ldVxK_of_key hq, exec_ldVxK_of_key (s := s.setSt b) hq]; rfl
  | _ => exact ⟨b, rfl⟩

/-- The body of a step event takes the same one of its four cases with another ST. -/
theorem stepBody_setSt (s : State) (b : Byte) : ∃ c, stepBody (s.setSt b) = mapNext (·.setSt c) (stepBody s) := by
  rcases stepBody_cases s with ⟨hs, e⟩ | ⟨hs, ha, e⟩ | ⟨hs, ha, i, hd, hw, e⟩ | ⟨hs, ha, hw, e⟩ <;> rw [e]
  · exact ⟨b, stepBody_of_faulted (s := s.setSt b) hs⟩
  · exact ⟨b, stepBody_of_fetchOutside (s := s.setSt b) hs ha⟩
  · rw [stepBody_of_executes (s := s.setSt b) ⟨hs, ha, hd, hw⟩]
    exact exec_setSt i s.advance b
  · exact ⟨b, stepBody_of_illegalWord (s := s.setSt b) hs ha hw⟩

/-! The statements. -/

/-- Settles O53: the ticks count another ST down beside the rest, and the body of the step event then answers the same but for ST. -/
theorem soundTimerDecidesNothing : Obligations.SoundTimerDecidesNothing := by
  intro s t b h
  obtain ⟨u, hu, rfl⟩ := mapNext_eq_next h
  obtain ⟨c, hc⟩ := stepBody_setSt (s.ticks s.input.ticks) (countDown s.input.ticks b)
  rw [hu] at hc
  exact ⟨(u.setSt c).nextInput, congrArg (mapNext State.nextInput) hc, rfl⟩

/-- Settles O21: the run is `ticks n` (`runEvents_ticks`, by induction on the ticks), each timer counted down by `countDown`. -/
theorem ticksCountDown : Obligations.TicksCountDown := by
  intro n s
  have hrun : runEvents (List.replicate n .tick) s = .next (s.ticks n) := by
    rw [← List.append_nil (List.replicate n _), runEvents_ticks, runEvents]
  have hcount : ∀ b : Byte, (countDown n b).toNat = b.toNat - min n b.toNat := fun b => by
    rw [countDown_toNat]
    omega
  exact ⟨s.ticks n, hrun, hcount s.dt, hcount s.st, rfl⟩

/-- Settles O20: LD Vx,DT is `setReg`, read back by `State.reg_setReg`; the other two write one field. -/
theorem timerMoves : Obligations.TimerMoves := fun s x =>
  ⟨⟨s.setReg x s.dt, rfl, s.reg_setReg x s.dt, rfl⟩, rfl, rfl⟩

end Sys2Proof.Machine
end

section
/-! PROOFS. The statements about input (spec/44_input.md): what SKP, SKNP and LD Vx,K do for each answer of the key query (R161 to R163),
that a step which waits for a key in vain changes nothing, and what each instruction samples from the environment (R160, R183). -/

namespace Sys2Proof.Machine

/-! Other inputs (R8): an instruction that samples the same answers the same, with the other inputs still to come. -/

/-- The state with other inputs of the environment to come. -/
def State.withInputs (ins : List Input) (n : Nat) (s : State) : State := { s with inputs := ins, clock := n }

section OtherInputs
variable (s : State) (ins : List Input) (n : Nat)

@[simp] theorem State.withInputs_reg (k : Reg) : (s.withInputs ins n).reg k = s.reg k := rfl
@[simp] theorem State.withInputs_config : (s.withInputs ins n).config = s.config := rfl

theorem exec_call_withInputs (nnn : Addr) :
    exec (.call nnn) (s.withInputs ins n) = mapNext (State.withInputs ins n) (exec (.call nnn) s) := by
  by_cases hs : s.sp.val < 16
  · rw [exec_call_of_room hs, exec_call_of_room (s := s.withInputs ins n) hs]; rfl
  · rw [exec_call_of_full hs, exec_call_of_full (s := s.withInputs ins n) hs]; rfl

theorem exec_ret_withInputs : exec .ret (s.withInputs ins n) = mapNext (State.withInputs ins n) (exec .ret s) := by
  by_cases hs : 0 < s.sp.val
  · rw [exec_ret_of_held hs, exec_ret_of_held (s := s.withInputs ins n) hs]; rfl
  · rw [exec_ret_of_empty hs, exec_ret_of_empty (s := s.withInputs ins n) hs]; rfl

theorem exec_rnd_withInputs (hr : (s.withInputs ins n).rndIn = s.rndIn) (x : Reg) (kk : Byte) :
    exec (.rnd x kk) (s.withInputs ins n) = mapNext (State.withInputs ins n) (exec (.rnd x kk) s) := by
  rw [exec, exec, execRnd, execRnd, hr]
  rfl

section SameKey
variable {s ins n} (hq : (s.withInputs ins n).keyQuery = s.keyQuery) (x : Reg)
include hq

theorem exec_skp_withInputs : exec (.skp x) (s.withInputs ins n) = mapNext (State.withInputs ins n) (exec (.skp x) s) := by
  cases hk : s.keyQuery with
  | none => rw [exec_skp_of_noKey hk, exec_skp_of_noKey (hq.trans hk), mapNext_next]
  | some k =>
    rw [exec_skp_of_key hk, exec_skp_of_key (hq.trans hk), State.withInputs_reg, mapNext_next]
    split <;> rfl

theorem exec_sknp_withInputs : exec (.sknp x) (s.withInputs ins n) = mapNext (State.withInputs ins n) (exec (.sknp x) s) := by
  cases hk : s.keyQuery with
  | none =>
    rw [exec_sknp_of_noKey hk, exec_sknp_of_noKey (hq.trans hk), State.withInputs_config, mapNext_next]
    split <;> rfl
  | some k =>
    rw [exec_sknp_of_key hk, exec_sknp_of_key (hq.trans hk), State.withInputs_reg, mapNext_next]
    split <;> rfl

theorem exec_ldVxK_withInputs :
    exec (.ldVxK x) (s.withInputs ins n) = mapNext (State.withInputs ins n) (exec (.ldVxK x) s) := by
  cases hk : s.keyQuery with
  | none => rw [exec_ldVxK_of_noKey hk, exec_ldVxK_of_noKey (hq.trans hk)]; rfl
  | some k => rw [exec_ldVxK_of_key hk, exec_ldVxK_of_key (hq.trans hk)]; rfl

end SameKey

/-- The instructions that sample depend on what they sample; the others look at no input, because the operations they share do not. -/
theorem exec_withInputs (i : Instr) (hq : samples i = .key → (s.withInputs ins n).keyQuery = s.keyQuery)
    (hr : samples i = .rnd → (s.withInputs ins n).rndIn = s.rndIn) :
    exec i (s.withInputs ins n) = mapNext (State.withInputs ins n) (exec i s) := by
  cases i with
  | skp x => exact exec_skp_withInputs (hq rfl) x
  | sknp x => exact exec_sknp_withInputs (hq rfl) x
  | ldVxK x => exact exec_ldVxK_withInputs (hq rfl) x
  | rnd x kk => exact exec_rnd_withInputs s ins n (hr rfl) x kk
  | seImm _ _ | sneImm _ _ | seReg _ _ | sneReg _ _ => exact skipIf_comm (f := State.withInputs ins n) rfl _
  | call nnn => exact exec_call_withInputs s ins n nnn
  | ret => exact exec_ret_withInputs s ins n
  | drw x y l =>
    refine .trans ?_ (guardAccess_comm (f := State.withInputs ins n) (fun _ _ => rfl) _ _ _)
    rfl
  | ldB x =>
    refine .trans ?_ (guardAccess_comm (f := State.withInputs ins n) (fun _ _ => rfl) _ _ _)
    rw [← guardLow_comm (f := State.withInputs ins n) rfl]
    rfl
  | ldMemVx x =>
    refine .trans ?_ (guardAccess_comm (f := State.withInputs ins n) (fun _ _ => rfl) _ _ _)
    rw [← guardLow_comm (f := State.withInputs ins n) rfl, mapNext_next,
      ← State.moveI_comm (f := State.withInputs ins n) rfl (fun _ => rfl)]
    rfl
  | ldVxMem x =>
    refine .trans ?_ (guardAccess_comm (f := State.withInputs ins n) (fun _ _ => rfl) _ _ _)
    rw [mapNext_next, ← State.moveI_comm (f := State.withInputs ins n) rfl (fun _ => rfl),
      ← State.loadBlock_comm (f := State.withInputs ins n) (fun _ => rfl) (fun _ _ _ => rfl)]
    rfl
  | _ => rfl

end OtherInputs

/-! Waiting for a key (R163). -/

/-- PC back by 2 undoes PC past the instruction (R72). -/
theorem State.advance_setPc_back (s : State) : s.advance.setPc (s.advance.pc - 2#16) = s := by
  rw [State.advance_pc, BitVec.add_sub_cancel]
  rfl

/-- Without a key, LD Vx,K gives back the state that the step event found: the same instruction is fetched again. -/
theorem exec_ldVxK_advance_of_noKey {s : State} (h : s.keyQuery = none) (x : Reg) : exec (.ldVxK x) s.advance = .next s := by
  rw [exec_ldVxK_of_noKey (s := s.advance) h, State.advance_setPc_back]

/-! The statements. -/

/-- Settles O27, instruction by instruction: what it samples is the same, and nothing else of it looks at the inputs. -/
theorem inputsSampledOnce : Obligations.InputsSampledOnce := fun i s ins n => exec_withInputs s ins n i

/-- Settles O22, by the answer of the key query; the compare of the zero-extended key is one of numbers (`extendKey_eq_iff`). -/
theorem skpSkipsOnMatch : Obligations.SkpSkipsOnMatch := by
  intro s x
  cases hk : s.keyQuery with
  | none => exact exec_skp_of_noKey hk x
  | some k =>
    simp only [exec_skp_of_key hk, extendKey_eq_iff]
    rfl

/-- Settles O23, by the answer of the key query. -/
theorem sknpSkipsOnMismatch : Obligations.SknpSkipsOnMismatch := by
  intro s x hidle
  cases hk : s.keyQuery with
  | none => rw [exec_sknp_of_noKey hk, hidle, if_neg Bool.false_ne_true]
  | some k => exact exec_sknp_of_key hk x

/-- Settles O25: with a key Vx and KEY are written and the other registers kept (`State.reg_setReg`), without one PC alone. -/
theorem ldVxKWaitsForKey : Obligations.LdVxKWaitsForKey := by
  intro s x
  refine ⟨fun k hk => ⟨_, exec_ldVxK_of_key hk x, ?_, rfl, fun j hj => State.reg_setReg_ne _ x _ hj, rfl⟩,
    fun hk => exec_ldVxK_of_noKey hk x⟩
  rw [State.reg_setReg, if_pos rfl, (extendKey_eq_iff k _).1 rfl]

/-- Settles O26: with no tick the step is the instruction at PC, which puts PC back, and then the next input is presented. -/
theorem waitingStepChangesNothing : Obligations.WaitingStepChangesNothing := by
  intro s x hx hkey hticks
  have hstep : step s = .next s.nextInput := calc
    step s = mapNext State.nextInput (exec (.ldVxK x) s.advance) := by
      rw [stepRunsDecodedInstruction s _ hx, hticks, State.ticks_zero]
      rfl
    _ = .next s.nextInput := by rw [exec_ldVxK_advance_of_noKey hkey, mapNext_next]
  exact ⟨s.nextInput, hstep, rfl⟩

end Sys2Proof.Machine
end

section
/-! PROOFS. The statements about the index register, memory transfer and random (spec/45_index_memory.md). LD B,Vx and LD [I],Vx are one
run of bytes stored at I, LD Vx,[I] is `loadBlock` from I, the others are one `setI` or `setReg` of the entry state, so that the frame
holds by definition; an access outside memory is settled with `accessesOutsideMemoryFault`. -/

namespace Sys2Proof.Machine

/-! The values given to I (R171, R172), and the decimal digits (R180), as numbers. -/

theorem toNat_add_extendByte (w : Word) (b : Byte) : (w + extendByte b).toNat = (w.toNat + b.toNat) % 65536 := by
  rw [extendByte, BitVec.toNat_add, BitVec.toNat_setWidth_of_le (by decide)]

/-- Five times a digit is far below 2^16. -/
theorem toNat_glyphAddress (b : Byte) : (glyphAddress b).toNat = 5 * (b.toNat % 16) := by
  have hdigit : (b.extractLsb' 0 4).toNat = b.toNat % 16 := BitVec.extractLsb'_toNat 0 4 b
  rw [glyphAddress, hdigit, BitVec.toNat_ofNat, Nat.mod_eq_of_lt (by omega)]

/-- Each digit fits in its byte. -/
theorem map_toNat_decimalDigits (b : Byte) :
    (decimalDigits b).map BitVec.toNat = [b.toNat / 100, b.toNat / 10 % 10, b.toNat % 10] := by
  have hb : b.toNat < 256 := b.isLt
  simp only [decimalDigits, List.map_cons, List.map_nil, BitVec.toNat_ofNat]
  rw [Nat.mod_eq_of_lt (a := b.toNat / 100) (by omega), Nat.mod_eq_of_lt (a := b.toNat / 10 % 10) (by omega),
    Nat.mod_eq_of_lt (a := b.toNat % 10) (by omega)]

/-! A run of bytes stored in memory (spec/20_memory.md R52, R54). -/

/-- A byte of the run, as a number. -/
theorem State.toNat_readByte_writeBytes (s : State) (a : Nat) {l : List Byte} {k n : Nat} (h : (l.map BitVec.toNat)[k]? = some n) :
    ((s.writeBytes a l).readByte (a + k)).toNat = n := by
  rw [List.getElem?_map, Option.map_eq_some_iff] at h
  obtain ⟨b, hb, rfl⟩ := h
  obtain ⟨hk, rfl⟩ := List.getElem?_eq_some_iff.1 hb
  rw [State.readByte_writeBytes, dif_pos (by omega)]
  simp only [Nat.add_sub_cancel_left]

theorem State.readByte_writeBytes_outside (s : State) {a c : Nat} {l : List Byte} (h : c < a ∨ a + l.length ≤ c) :
    (s.writeBytes a l).readByte c = s.readByte c := by
  rw [State.readByte_writeBytes, dif_neg (by omega)]

/-! The block transfers in the default setting of BLOCK_MOVES_I (R181, R182). -/

theorem State.moveI_of_not_blockMovesI {s : State} (h : s.config.blockMovesI = false) (x : Reg) : s.moveI x = s := by
  rw [State.moveI, h, if_neg Bool.false_ne_true]

@[simp] theorem State.loadBlock_config (s : State) (a n : Nat) : (s.loadBlock a n).config = s.config := by
  rw [State.loadBlock_eq]

/-! The statements. -/

/-- Settles O29: inside memory and past PROTECT_LOW the digits are the run stored at I; otherwise the access's guard faults. -/
theorem ldBStoresDigits : Obligations.LdBStoresDigits := by
  intro s x
  obtain ⟨-, -, houtside, -⟩ := accessesOutsideMemoryFault s
  refine ⟨fun hlow hmem => ?_, houtside x⟩
  have hdigits := map_toNat_decimalDigits (s.reg x)
  refine ⟨_, (exec_ldB_inside hmem).trans (guardLow_open hlow _), ?_, ?_, ?_, fun a ha => ?_, rfl⟩
  · exact s.toNat_readByte_writeBytes s.i.toNat (k := 0) (by rw [hdigits]; rfl)
  · exact s.toNat_readByte_writeBytes s.i.toNat (k := 1) (by rw [hdigits]; rfl)
  · exact s.toNat_readByte_writeBytes s.i.toNat (k := 2) (by rw [hdigits]; rfl)
  · exact s.readByte_writeBytes_outside ha

/-- Settles O30: inside memory and past PROTECT_LOW the block is the run stored at I, and I stays; otherwise the access's guard
faults. -/
theorem blockStoreWritesRegisters : Obligations.BlockStoreWritesRegisters := by
  intro s x
  obtain ⟨-, -, -, houtside, -⟩ := accessesOutsideMemoryFault s
  refine ⟨fun hstay hlow hmem => ?_, fun hi => (houtside x hi).1⟩
  have hstore : exec (.ldMemVx x) s = .next (s.writeBytes s.i.toNat (s.regBlock x)) := by
    rw [exec_ldMemVx_inside hmem, guardLow_open hlow, State.moveI_of_not_blockMovesI (s := s.writeBytes _ _) hstay]
  exact ⟨_, hstore, fun k => s.readByte_writeBlock_inside s.i.toNat, fun a => s.readByte_writeBlock_outside, rfl⟩

/-- Settles O31: inside memory the load is `loadBlock`, and I stays; otherwise the access's guard faults. -/
theorem blockLoadReadsRegisters : Obligations.BlockLoadReadsRegisters := by
  intro s x hstay
  obtain ⟨-, -, -, houtside, -⟩ := accessesOutsideMemoryFault s
  refine ⟨fun hmem => ?_, fun hi => (houtside x hi).2⟩
  have hload : exec (.ldVxMem x) s = .next (s.loadBlock s.i.toNat (x.toNat + 1)) := by
    rw [exec_ldVxMem_inside hmem, State.moveI_of_not_blockMovesI (by rw [State.loadBlock_config, hstay])]
  refine ⟨_, hload, fun k => ?_, s.loadBlock_eq _ _⟩
  rw [State.loadBlock_reg s _ _ (by omega)]
  simp only [Nat.lt_succ_iff]

/-- Settles O28: each is one `setI`, its value as a number. -/
theorem indexWrites : Obligations.IndexWrites := fun s =>
  ⟨fun nnn => ⟨_, rfl, toNat_extendAddr nnn, rfl⟩, fun x => ⟨_, rfl, toNat_add_extendByte s.i (s.reg x), rfl⟩,
    fun x => ⟨_, rfl, toNat_glyphAddress (s.reg x), rfl⟩⟩

/-- Settles O33: one `setReg` of the masked byte, whose bits are those of the conjunction. -/
theorem rndMasksRandomByte : Obligations.RndMasksRandomByte := by
  intro s x kk
  refine ⟨s.setReg x (s.rndIn &&& kk), rfl, fun b => ?_, fun _ => s.reg_setReg_ne x _, rfl⟩
  rw [State.reg_setReg_self, BitVec.getLsbD_and]

end Sys2Proof.Machine
end

section
/-! PROOFS. The statements about faults (spec/60_exceptions.md): which instruction raises which fault (R205), that a fault changes nothing
but FAULT and PC (R209), and that a faulted core is frozen until a reset (R210, R211). -/

namespace Sys2Proof.Machine

/-! Which fault an instruction raises (R205). -/

@[simp] theorem State.loadBlock_fault (s : State) (a n : Nat) : (s.loadBlock a n).fault = s.fault := by
  rw [State.loadBlock_eq]

@[simp] theorem State.moveI_fault (s : State) (x : Reg) : (s.moveI x).fault = s.fault := by
  rcases s.moveI_cases x with ⟨-, e⟩ | ⟨-, e⟩ <;> rw [e]
  rfl

theorem skipIf_fault {c : Bool} {s t : State} (h : skipIf c s = .next t) : t.fault = s.fault := by
  rcases skipIf_cases h with ⟨-, rfl⟩ | ⟨-, rfl⟩ <;> rfl

/-- R205's list: the instructions that can raise a fault, each with its one fault. -/
inductive Raises : Instr → FaultKind → Prop where
  | call (nnn : Addr) : Raises (.call nnn) .stackOverflow
  | ret : Raises .ret .stackUnderflow
  | drw (x y : Reg) (n : Nibble) : Raises (.drw x y n) .addressFault
  | ldB (x : Reg) : Raises (.ldB x) .addressFault
  | ldMemVx (x : Reg) : Raises (.ldMemVx x) .addressFault
  | ldVxMem (x : Reg) : Raises (.ldVxMem x) .addressFault

/-- FAULT after an instruction: as it was, or set to the one fault that the instruction can raise. -/
theorem exec_fault_cases {i : Instr} {s t : State} (h : exec i s = .next t) :
    t.fault = s.fault ∨ ∃ k w, Raises i k ∧ t.fault = some { kind := k, info := w } := by
  cases i with
  | call nnn =>
    rcases execCall_cases h with ⟨hs, rfl⟩ | ⟨-, rfl⟩
    · exact .inl rfl
    · exact .inr ⟨_, _, .call nnn, rfl⟩
  | ret =>
    rcases execRet_cases h with ⟨hs, rfl⟩ | ⟨-, rfl⟩
    · exact .inl rfl
    · exact .inr ⟨_, _, .ret, rfl⟩
  | drw x y n =>
    rcases execDrw_cases h with ⟨p, rfl⟩ | rfl
    · exact .inl rfl
    · exact .inr ⟨_, _, .drw x y n, rfl⟩
  | ldB x =>
    rcases execLdB_cases h with ⟨-, rfl⟩ | rfl
    · exact .inl rfl
    · exact .inr ⟨_, _, .ldB x, rfl⟩
  | ldMemVx x =>
    rcases execLdMemVx_cases h with ⟨-, rfl⟩ | rfl
    · exact .inl (State.moveI_fault _ x)
    · exact .inr ⟨_, _, .ldMemVx x, rfl⟩
  | ldVxMem x =>
    rcases execLdVxMem_cases h with ⟨-, rfl⟩ | rfl
    · exact .inl ((State.moveI_fault _ x).trans (State.loadBlock_fault s _ _))
    · exact .inr ⟨_, _, .ldVxMem x, rfl⟩
  | seImm _ _ | sneImm _ _ | seReg _ _ | sneReg _ _ => exact .inl (skipIf_fault h)
  | skp x => rcases execSkp_cases h with ⟨-, rfl⟩ | ⟨k, -, -, rfl⟩ | ⟨k, -, -, rfl⟩ <;> exact .inl rfl
  | sknp x =>
    rcases execSknp_cases h with ⟨-, -, rfl⟩ | ⟨-, -, rfl⟩ | ⟨k, -, -, rfl⟩ | ⟨k, -, -, rfl⟩ <;> exact .inl rfl
  | ldVxK x => rcases execLdVxK_cases h with ⟨-, rfl⟩ | ⟨k, -, rfl⟩ <;> exact .inl rfl
  | _ => injection h with h; subst h; exact .inl rfl

/-! The step event that raises a fault (R209). -/

/-- A running core that a step event leaves faulted has only had the fault raised: the fetch's own at PC, or another past the word. -/
theorem stepBody_raises {s t : State} (h : stepBody s = .next t) (hs : s.fault = none) (hf : t.fault ≠ none) :
    (s.pc.toNat > 0xFFE ∧ t = s.raise .addressFault s.pc) ∨ (s.pc.toNat ≤ 0xFFE ∧ ∃ k w, t = s.advance.raise k w) := by
  rcases stepBody_cases s with ⟨hn, -⟩ | ⟨-, ha, e⟩ | ⟨-, ha, i, -, -, e⟩ | ⟨-, ha, -, e⟩
  · exact absurd hs hn
  · rw [e] at h; injection h with h; exact .inl ⟨ha, h.symm⟩
  · rcases exec_next_cases (e.symm.trans h) with hr | ⟨hk, -⟩
    · exact .inr ⟨ha, hr⟩
    · exact absurd (hk.trans hs) hf
  · rw [e] at h; injection h with h; exact .inr ⟨ha, _, _, h.symm⟩

/-! The faulted core (R210). -/

/-- `t` is `s` but for the timers and the environment's inputs. -/
def State.sameButTimers (s t : State) : Prop := t = { s with dt := t.dt, st := t.st, inputs := t.inputs, clock := t.clock }

theorem State.sameButTimers.trans {s t u : State} (h : s.sameButTimers t) (h' : t.sameButTimers u) : s.sameButTimers u := by
  unfold State.sameButTimers at h h'
  rw [h] at h'
  exact h'

theorem State.sameButTimers.fault_eq {s t : State} (h : s.sameButTimers t) : t.fault = s.fault := by
  unfold State.sameButTimers at h
  rw [h]

/-- FAULT's code at the port fault_out (R200). -/
theorem State.faultOut_of_fault {s : State} {f : FaultRecord} (hs : s.fault = some f) : s.faultOut = some (f.kind.code, f.info) := by
  rw [State.faultOut, hs, Option.map_some]

theorem stepEvent_of_faulted {s : State} (hs : s.fault ≠ none) : stepEvent s = .next s.nextInput := by
  rw [stepEvent, stepBody_of_faulted hs, mapNext_next]

/-- On a faulted core every event but a reset is answered by a state that differs in the timers and the inputs alone. -/
theorem applyEvent_of_faulted {s : State} (hs : s.fault ≠ none) {e : Event} (he : ∀ prog, e ≠ .reset prog) :
    ∃ u, applyEvent e s = .next u ∧ s.sameButTimers u := by
  cases e with
  | reset prog => exact absurd rfl (he prog)
  | step => exact ⟨_, stepEvent_of_faulted hs, rfl⟩
  | tick => exact ⟨_, rfl, rfl⟩

/-- A run without reset from a faulted core completes, in a state that differs in the timers and the inputs alone. -/
theorem runEvents_of_faulted {es : List Event} {s : State} (hs : s.fault ≠ none) (hes : ∀ prog, Event.reset prog ∉ es) :
    ∃ t, runEvents es s = .next t ∧ s.sameButTimers t := by
  induction es generalizing s with
  | nil => exact ⟨s, rfl, rfl⟩
  | cons e es ih =>
    obtain ⟨u, hu, hsu⟩ := applyEvent_of_faulted hs (e := e) fun prog he => hes prog (he ▸ List.mem_cons_self)
    obtain ⟨t, ht, hut⟩ := ih (s := u) (hsu.fault_eq ▸ hs) fun prog hm => hes prog (List.mem_cons_of_mem e hm)
    exact ⟨t, by rw [runEvents, hu]; exact ht, hsu.trans hut⟩

/-! The statements. -/

/-- Settles O44: by induction on the run (`runEvents_of_faulted`), its end differs in the timers and the inputs alone. -/
theorem firstFaultStays : Obligations.FirstFaultStays := by
  intro es s t f hes hs h
  obtain ⟨u, hu, hsu⟩ := runEvents_of_faulted (hs ▸ Option.some_ne_none f) hes
  obtain rfl : u = t := by rw [hu] at h; injection h
  exact ⟨hsu.fault_eq.trans hs, hsu⟩

/-- Settles O45: the body of the event is the raise alone, at PC or past the word (`stepBody_raises`). -/
theorem faultsArePrecise : Obligations.FaultsArePrecise := by
  intro s t f h hs hf
  obtain ⟨u, hu, rfl⟩ := mapNext_eq_next h
  rcases stepBody_raises hu hs (hf ▸ Option.some_ne_none f) with ⟨ha, rfl⟩ | ⟨ha, k, w, rfl⟩
  · injection hf with hf
    exact ⟨rfl, fun hle => by omega, fun _ => ⟨rfl, hf.symm⟩⟩
  · exact ⟨rfl, fun _ => rfl, fun hgt => by omega⟩

/-- Settles O46: the fault is one that R205's list gives the instruction (`exec_fault_cases`). -/
theorem oneFaultPerInstruction : Obligations.OneFaultPerInstruction := by
  intro i s t f h hs hf
  rcases exec_fault_cases h with hk | ⟨k, w, hr, hk⟩
  · rw [hk, hs] at hf; cases hf
  · obtain rfl : { kind := k, info := w } = f := Option.some.inj (hk.symm.trans hf)
    cases hr with
    | call nnn => exact .inl ⟨rfl, nnn, rfl⟩
    | ret => exact .inr (.inl ⟨rfl, rfl⟩)
    | drw x y n => exact .inr (.inr ⟨rfl, .inl ⟨x, y, n, rfl⟩⟩)
    | ldB x => exact .inr (.inr ⟨rfl, .inr (.inl ⟨x, rfl⟩)⟩)
    | ldMemVx x => exact .inr (.inr ⟨rfl, .inr (.inr (.inl ⟨x, rfl⟩))⟩)
    | ldVxMem x => exact .inr (.inr ⟨rfl, .inr (.inr (.inr ⟨x, rfl⟩))⟩)

/-- Settles O36: the body raises DecodeFailure past the word (`stepBody_of_illegalWord`), and the event uses up its input. -/
theorem illegalWordRaisesDecodeFailure : Obligations.IllegalWordRaisesDecodeFailure := by
  intro s hs ha hw
  rw [stepEvent, stepBody_of_illegalWord hs ha hw, mapNext_next]
  rfl

/-- Settles O43: a step event uses up its input and nothing else, a tick touches the timers, and `load` clears FAULT. -/
theorem faultedCoreIsFrozen : Obligations.FaultedCoreIsFrozen := by
  intro s f hs
  have hcode : ∀ {k : FaultKind}, f.kind = k → s.faultOut = some (k.code, f.info) := fun hk =>
    hk ▸ State.faultOut_of_fault hs
  refine ⟨⟨_, stepEvent_of_faulted (hs ▸ Option.some_ne_none f), rfl⟩,
    ⟨s.tick, rfl, hs, s.tick_dt_toNat, s.tick_st_toNat, rfl⟩, hcode, hcode, hcode, hcode, fun prog hfits => ?_⟩
  exact ⟨s.load prog, if_pos (decide_eq_true hfits), rfl⟩

end Sys2Proof.Machine
end

section
/-! PROOFS. The statement about State.reset (spec/70_reset_and_hazards.md R231, R232): a reset with the empty image writes the font alone,
and the default font is what unlisted addresses read as, so that memory lists nothing. -/

namespace Sys2Proof.Machine

/-! Memory after reset with the empty image (R40, R231). -/

/-- The unlisted byte written to an unlisted address leaves no entry. -/
theorem Memory.write_nil_unlisted (a : Nat) : Memory.write [] a (Memory.unlisted a) = [] := if_pos rfl

theorem Memory.writeBytes_nil_unlisted (a n : Nat) : Memory.writeBytes [] a ((List.range' a n).map Memory.unlisted) = [] := by
  induction n generalizing a with
  | zero => rfl
  | succ n ih => rw [List.range'_succ, List.map_cons, Memory.writeBytes, Memory.write_nil_unlisted, ih]

theorem resetMemory_default_nil : resetMemory Font.default [] = [] := by
  rw [resetMemory, Memory.writeBytes, List.range_eq_range']
  exact Memory.writeBytes_nil_unlisted 0 80

/-! The statement. -/

/-- Settles O55: every field but memory is `State.reset`'s by definition, and memory lists nothing (`resetMemory_default_nil`). -/
theorem resetStateIsEmptyLoad : Obligations.ResetStateIsEmptyLoad := by
  refine fun s => ⟨?_, rfl⟩
  calc ({ s with config := Config.default, inputs := [], clock := 0 } : State).load []
      = { State.reset with mem := resetMemory Font.default [] } := rfl
    _ = State.reset := by rw [resetMemory_default_nil]; rfl

end Sys2Proof.Machine
end
